-- ==== Sys2Proof/Word.lean ====
section
/-! DEFINITION. The widths the spec names (rules R7, R8, R71): every value is an unsigned bit vector,
bit 0 its least significant bit, and no value has a signed reading. -/

namespace Sys2Proof

/-- An 8-bit value: a general register, a timer, a memory byte, the immediate `kk` (R8, R21, R71). -/
abbrev Byte := BitVec 8

/-- A 16-bit value: `I`, `PC`, a stack entry, an instruction word (R24, R25, R27, R70). -/
abbrev Word := BitVec 16

/-- A 4-bit field: a register number `x` or `y`, a row count `n`, a decoder key (R71). -/
abbrev Nibble := BitVec 4

/-- A 12-bit field: the address `nnn` (R71). -/
abbrev Addr := BitVec 12

end Sys2Proof
end

