-- ==== Sys2Proof/Syntax.lean ====
section
/-! DEFINITION. The instruction set (rules R2, R81): one constructor per row of spec/opcode_table.json, carrying the
operand fields the row's format names (R72) and no others. -/

namespace Sys2Proof

/-- The 34 instructions of rule R81 in the table's order, and the no-op of its last row. -/
inductive Instr where
  /-- 00E0, clear display (R151). -/
  | cls
  /-- 00EE, return (R101). -/
  | ret
  /-- 1nnn, jump (R102). -/
  | jp (nnn : Addr)
  /-- 2nnn, call (R103). -/
  | call (nnn : Addr)
  /-- 3xkk, skip if Vx = kk (R104). -/
  | seImm (x : Nibble) (kk : Byte)
  /-- 4xkk, skip if Vx differs from kk (R105). -/
  | sneImm (x : Nibble) (kk : Byte)
  /-- 5xy0, skip if Vx = Vy (R106). -/
  | seReg (x y : Nibble)
  /-- 6xkk, load immediate (R121). -/
  | ldImm (x : Nibble) (kk : Byte)
  /-- 7xkk, add immediate (R122). -/
  | addImm (x : Nibble) (kk : Byte)
  /-- 8xy0, copy register (R123). -/
  | ldReg (x y : Nibble)
  /-- 8xy1, OR (R124). -/
  | orReg (x y : Nibble)
  /-- 8xy2, AND (R125). -/
  | andReg (x y : Nibble)
  /-- 8xy3, XOR (R126). -/
  | xorReg (x y : Nibble)
  /-- 8xy4, add with carry into VF (R127). -/
  | addReg (x y : Nibble)
  /-- 8xy5, subtract (R128). -/
  | subReg (x y : Nibble)
  /-- 8xy6, shift right (R129); the y field is not an operand. -/
  | shr (x : Nibble)
  /-- 8xy7, subtract reversed (R130). -/
  | subn (x y : Nibble)
  /-- 8xyE, shift left (R131); the y field is not an operand. -/
  | shl (x : Nibble)
  /-- 9xy0, skip if Vx differs from Vy (R107). -/
  | sneReg (x y : Nibble)
  /-- Annn, load the index register (R141). -/
  | ldI (nnn : Addr)
  /-- Bnnn, jump to nnn + V0 (R109). -/
  | jpV0 (nnn : Addr)
  /-- Cxkk, random byte (R164). -/
  | rnd (x : Nibble) (kk : Byte)
  /-- Dxyn, draw a sprite (R152). -/
  | drw (x y n : Nibble)
  /-- Ex9E, skip if key Vx is pressed (R165). -/
  | skp (x : Nibble)
  /-- ExA1, skip if key Vx is not pressed (R166). -/
  | sknp (x : Nibble)
  /-- Fx07, read the delay timer (R161). -/
  | ldVxDt (x : Nibble)
  /-- Fx0A, poll for a key (R167). -/
  | ldVxK (x : Nibble)
  /-- Fx15, set the delay timer (R162). -/
  | ldDtVx (x : Nibble)
  /-- Fx18, set the sound timer (R163). -/
  | ldStVx (x : Nibble)
  /-- Fx1E, add to the index register (R142). -/
  | addI (x : Nibble)
  /-- Fx29, address of a font glyph (R143). -/
  | ldF (x : Nibble)
  /-- Fx33, store three decimal digits (R144). -/
  | ldB (x : Nibble)
  /-- Fx55, store V0 to Vx (R145). -/
  | storeRegs (x : Nibble)
  /-- Fx65, load V0 to Vx (R146). -/
  | loadRegs (x : Nibble)
  /-- The defined no-op (R79, R100): the word itself, one that selects no other row (R82). -/
  | nop (word : Word)
  deriving DecidableEq, Repr

end Sys2Proof
end

