-- ==== Sys2Proof/Decode.lean ====
section
/-! DEFINITION. Fields, the two-level decoder of rules R74 to R79, the opcode table of rule R81 as rows of mask and
match with the decoder that reads it (R86), and the encoder to the canonical words. -/

namespace Sys2Proof

/-! ### Fields of the instruction word (R71) -/

/-- `op = OPC[15:12]`. -/
def opField (w : Word) : Nibble := w.extractLsb' 12 4
/-- `x = OPC[11:8]`. -/
def xField (w : Word) : Nibble := w.extractLsb' 8 4
/-- `y = OPC[7:4]`. -/
def yField (w : Word) : Nibble := w.extractLsb' 4 4
/-- `n = OPC[3:0]`, also the second key of the categories 0x0, 0x8 and 0xE. -/
def nField (w : Word) : Nibble := w.extractLsb' 0 4
/-- `kk = OPC[7:0]`, also the second key of the category 0xF. -/
def kkField (w : Word) : Byte := w.extractLsb' 0 8
/-- `nnn = OPC[11:0]`. -/
def nnnField (w : Word) : Addr := w.extractLsb' 0 12

/-! ### The two-level decoder (R74) -/

/-- Secondary table 0, key `OPC[3:0]` (R75); bits 11:4 are not examined (C2, D2). -/
def decodeCategory0 (w : Word) : Instr :=
  match nField w with
  | 0x0#4 => .cls
  | 0xE#4 => .ret
  | _ => .nop w

/-- Secondary table 8, key `OPC[3:0]` (R76). -/
def decodeCategory8 (w : Word) : Instr :=
  match nField w with
  | 0x0#4 => .ldReg (xField w) (yField w)
  | 0x1#4 => .orReg (xField w) (yField w)
  | 0x2#4 => .andReg (xField w) (yField w)
  | 0x3#4 => .xorReg (xField w) (yField w)
  | 0x4#4 => .addReg (xField w) (yField w)
  | 0x5#4 => .subReg (xField w) (yField w)
  | 0x6#4 => .shr (xField w)
  | 0x7#4 => .subn (xField w) (yField w)
  | 0xE#4 => .shl (xField w)
  | _ => .nop w

/-- Secondary table E, key `OPC[3:0]` (R77); bits 7:4 are not examined (C2, D2). -/
def decodeCategoryE (w : Word) : Instr :=
  match nField w with
  | 0xE#4 => .skp (xField w)
  | 0x1#4 => .sknp (xField w)
  | _ => .nop w

/-- Secondary table F, key `OPC[7:0]` (R78). -/
def decodeCategoryF (w : Word) : Instr :=
  match kkField w with
  | 0x07#8 => .ldVxDt (xField w)
  | 0x0A#8 => .ldVxK (xField w)
  | 0x15#8 => .ldDtVx (xField w)
  | 0x18#8 => .ldStVx (xField w)
  | 0x1E#8 => .addI (xField w)
  | 0x29#8 => .ldF (xField w)
  | 0x33#8 => .ldB (xField w)
  | 0x55#8 => .storeRegs (xField w)
  | 0x65#8 => .loadRegs (xField w)
  | _ => .nop w

/-- The top level, key `OPC[15:12]` (R74); every word decodes, an unresolved second key to the no-op (R79, R82). -/
def decodeWord (w : Word) : Instr :=
  match opField w with
  | 0x0#4 => decodeCategory0 w
  | 0x1#4 => .jp (nnnField w)
  | 0x2#4 => .call (nnnField w)
  | 0x3#4 => .seImm (xField w) (kkField w)
  | 0x4#4 => .sneImm (xField w) (kkField w)
  | 0x5#4 => .seReg (xField w) (yField w)
  | 0x6#4 => .ldImm (xField w) (kkField w)
  | 0x7#4 => .addImm (xField w) (kkField w)
  | 0x8#4 => decodeCategory8 w
  | 0x9#4 => .sneReg (xField w) (yField w)
  | 0xA#4 => .ldI (nnnField w)
  | 0xB#4 => .jpV0 (nnnField w)
  | 0xC#4 => .rnd (xField w) (kkField w)
  | 0xD#4 => .drw (xField w) (yField w) (nField w)
  | 0xE#4 => decodeCategoryE w
  | _ => decodeCategoryF w

/-! ### Bytes -/

/-- Why a list of bytes is no instruction: the only reason is that a byte is missing (R70: two bytes, always). -/
inductive DecodeError where
  /-- Fewer than two bytes are left. -/
  | truncated
  deriving DecidableEq, Repr

/-- A word from the byte at the lower address and the byte after it: big-endian (R52). -/
def wordOfBytes (high low : Byte) : Word := high ++ low

/-- The byte at the lower address of a word, bits 15:8 (R52). -/
def highByte (w : Word) : Byte := w.extractLsb' 8 8

/-- The byte at the higher address of a word, bits 7:0 (R52). -/
def lowByte (w : Word) : Byte := w.extractLsb' 0 8

/-- Decode the first instruction of a byte stream and give the bytes left (R52, R65, R70). -/
def decodeBytes : List Byte → Except DecodeError (Instr × List Byte)
  | high :: low :: rest => .ok (decodeWord (wordOfBytes high low), rest)
  | [_] => .error .truncated
  | [] => .error .truncated

/-- The instruction word that an opcode-table number of `nbits` bits denotes; the bits above `nbits` are 0. -/
def tableWord (nbits w : Nat) : Word := BitVec.ofNat 16 (w % 2 ^ nbits)

/-- The host's question about one row: lay the word out in memory order and decode it. -/
def decodeTableWord (nbits w : Nat) : Option Instr :=
  match decodeBytes [highByte (tableWord nbits w), lowByte (tableWord nbits w)] with
  | .ok (i, _) => some i
  | .error _ => none

/-! ### The opcode table (R81, R86) -/

/-- One row of rule R81: a word `w` selects it iff `w &&& mask = pattern`; `build` reads the operand fields. -/
structure OpcodeRow where
  mnemonic : String
  mask : Word
  pattern : Word
  build : Word → Instr

/-- Rows 1 to 10 of rule R81. -/
def opcodeRowsFlow : List OpcodeRow :=
  [ ⟨"CLS", 0xF00F, 0x0000, fun _ => .cls⟩,
    ⟨"RET", 0xF00F, 0x000E, fun _ => .ret⟩,
    ⟨"JP_nnn", 0xF000, 0x1000, fun w => .jp (nnnField w)⟩,
    ⟨"CALL_nnn", 0xF000, 0x2000, fun w => .call (nnnField w)⟩,
    ⟨"SE_Vx__kk", 0xF000, 0x3000, fun w => .seImm (xField w) (kkField w)⟩,
    ⟨"SNE_Vx__kk", 0xF000, 0x4000, fun w => .sneImm (xField w) (kkField w)⟩,
    ⟨"SE_Vx__Vy", 0xF000, 0x5000, fun w => .seReg (xField w) (yField w)⟩,
    ⟨"SNE_Vx__Vy", 0xF000, 0x9000, fun w => .sneReg (xField w) (yField w)⟩,
    ⟨"LD_Vx__kk", 0xF000, 0x6000, fun w => .ldImm (xField w) (kkField w)⟩,
    ⟨"ADD_Vx__kk", 0xF000, 0x7000, fun w => .addImm (xField w) (kkField w)⟩ ]

/-- Rows 11 to 19 of rule R81. -/
def opcodeRowsAlu : List OpcodeRow :=
  [ ⟨"LD_Vx__Vy", 0xF00F, 0x8000, fun w => .ldReg (xField w) (yField w)⟩,
    ⟨"OR_Vx__Vy", 0xF00F, 0x8001, fun w => .orReg (xField w) (yField w)⟩,
    ⟨"AND_Vx__Vy", 0xF00F, 0x8002, fun w => .andReg (xField w) (yField w)⟩,
    ⟨"XOR_Vx__Vy", 0xF00F, 0x8003, fun w => .xorReg (xField w) (yField w)⟩,
    ⟨"ADD_Vx__Vy", 0xF00F, 0x8004, fun w => .addReg (xField w) (yField w)⟩,
    ⟨"SUB_Vx__Vy", 0xF00F, 0x8005, fun w => .subReg (xField w) (yField w)⟩,
    ⟨"SHR_Vx", 0xF00F, 0x8006, fun w => .shr (xField w)⟩,
    ⟨"SUBN_Vx__Vy", 0xF00F, 0x8007, fun w => .subn (xField w) (yField w)⟩,
    ⟨"SHL_Vx", 0xF00F, 0x800E, fun w => .shl (xField w)⟩ ]

/-- Rows 20 to 25 of rule R81. -/
def opcodeRowsMisc : List OpcodeRow :=
  [ ⟨"LD_I__nnn", 0xF000, 0xA000, fun w => .ldI (nnnField w)⟩,
    ⟨"JP_V0__nnn", 0xF000, 0xB000, fun w => .jpV0 (nnnField w)⟩,
    ⟨"RND_Vx__kk", 0xF000, 0xC000, fun w => .rnd (xField w) (kkField w)⟩,
    ⟨"DRW_Vx__Vy__n", 0xF000, 0xD000, fun w => .drw (xField w) (yField w) (nField w)⟩,
    ⟨"SKP_Vx", 0xF00F, 0xE00E, fun w => .skp (xField w)⟩,
    ⟨"SKNP_Vx", 0xF00F, 0xE001, fun w => .sknp (xField w)⟩ ]

/-- Rows 26 to 34 of rule R81. -/
def opcodeRowsF : List OpcodeRow :=
  [ ⟨"LD_Vx__DT", 0xF0FF, 0xF007, fun w => .ldVxDt (xField w)⟩,
    ⟨"LD_DT__Vx", 0xF0FF, 0xF015, fun w => .ldDtVx (xField w)⟩,
    ⟨"LD_ST__Vx", 0xF0FF, 0xF018, fun w => .ldStVx (xField w)⟩,
    ⟨"LD_Vx__K", 0xF0FF, 0xF00A, fun w => .ldVxK (xField w)⟩,
    ⟨"ADD_I__Vx", 0xF0FF, 0xF01E, fun w => .addI (xField w)⟩,
    ⟨"LD_F__Vx", 0xF0FF, 0xF029, fun w => .ldF (xField w)⟩,
    ⟨"LD_B__Vx", 0xF0FF, 0xF033, fun w => .ldB (xField w)⟩,
    ⟨"LD__I___Vx", 0xF0FF, 0xF055, fun w => .storeRegs (xField w)⟩,
    ⟨"LD_Vx___I", 0xF0FF, 0xF065, fun w => .loadRegs (xField w)⟩ ]

/-- The 34 rows that are not the fallback (R81). -/
def opcodeTable : List OpcodeRow := opcodeRowsFlow ++ opcodeRowsAlu ++ opcodeRowsMisc ++ opcodeRowsF

/-- A word selects a row (R81). -/
def OpcodeRow.selects (r : OpcodeRow) (w : Word) : Bool := w &&& r.mask == r.pattern

/-- The decoder written from the table alone (R86): the row that matches, else the fallback. -/
def decodeByTable (w : Word) : Instr :=
  match opcodeTable.find? (·.selects w) with
  | some r => r.build w
  | none => .nop w

/-! ### The encoder (R72, R81): the canonical word of an instruction, written field by field as the table prints it -/

/-- The canonical encoding (R80); a shift has y = 0 (R84). -/
def encode : Instr → Word
  | .cls => 0x00E0#16
  | .ret => 0x00EE#16
  | .jp nnn => 0x1#4 ++ nnn
  | .call nnn => 0x2#4 ++ nnn
  | .seImm x kk => 0x3#4 ++ x ++ kk
  | .sneImm x kk => 0x4#4 ++ x ++ kk
  | .seReg x y => 0x5#4 ++ x ++ y ++ 0x0#4
  | .ldImm x kk => 0x6#4 ++ x ++ kk
  | .addImm x kk => 0x7#4 ++ x ++ kk
  | .ldReg x y => 0x8#4 ++ x ++ y ++ 0x0#4
  | .orReg x y => 0x8#4 ++ x ++ y ++ 0x1#4
  | .andReg x y => 0x8#4 ++ x ++ y ++ 0x2#4
  | .xorReg x y => 0x8#4 ++ x ++ y ++ 0x3#4
  | .addReg x y => 0x8#4 ++ x ++ y ++ 0x4#4
  | .subReg x y => 0x8#4 ++ x ++ y ++ 0x5#4
  | .shr x => 0x8#4 ++ x ++ 0x0#4 ++ 0x6#4
  | .subn x y => 0x8#4 ++ x ++ y ++ 0x7#4
  | .shl x => 0x8#4 ++ x ++ 0x0#4 ++ 0xE#4
  | .sneReg x y => 0x9#4 ++ x ++ y ++ 0x0#4
  | .ldI nnn => 0xA#4 ++ nnn
  | .jpV0 nnn => 0xB#4 ++ nnn
  | .rnd x kk => 0xC#4 ++ x ++ kk
  | .drw x y n => 0xD#4 ++ x ++ y ++ n
  | .skp x => 0xE#4 ++ x ++ 0x9E#8
  | .sknp x => 0xE#4 ++ x ++ 0xA1#8
  | .ldVxDt x => 0xF#4 ++ x ++ 0x07#8
  | .ldVxK x => 0xF#4 ++ x ++ 0x0A#8
  | .ldDtVx x => 0xF#4 ++ x ++ 0x15#8
  | .ldStVx x => 0xF#4 ++ x ++ 0x18#8
  | .addI x => 0xF#4 ++ x ++ 0x1E#8
  | .ldF x => 0xF#4 ++ x ++ 0x29#8
  | .ldB x => 0xF#4 ++ x ++ 0x33#8
  | .storeRegs x => 0xF#4 ++ x ++ 0x55#8
  | .loadRegs x => 0xF#4 ++ x ++ 0x65#8
  | .nop word => word

/-- The two bytes of an instruction in memory order (R52). -/
def encodeBytes (i : Instr) : List Byte := [highByte (encode i), lowByte (encode i)]

end Sys2Proof
end

