-- ==== Sys2Proof/Config.lean ====
section
/-! DEFINITION. The parameters of the implementation (rule R6) and the one free value (rules R97, R164):
what is fixed for the machine, as opposed to what changes while it runs. -/

namespace Sys2Proof.Config

/-- `MEM_SIZE` (R6, R50): addresses 0x000 to 0xFFF. -/
abbrev memSize : Nat := 4096

/-- `FONT_BASE` (R6, R51). -/
abbrev fontBase : Nat := 0x050

/-- `FONT_LEN` (R6, R51): 16 glyphs of 5 bytes. -/
abbrev fontLen : Nat := 80

/-- `ROM_BASE` (R6, R65). -/
abbrev romBase : Nat := 0x200

/-- `ROM_MAX` (R6, R65): 4096 - 0x200. -/
abbrev romMax : Nat := 3584

/-- `PC_RESET` (R6, R39). -/
abbrev pcReset : Word := 0x200#16

/-- The default of the parameter `FONT`, glyphs 0 to 7 (R51).
PRESUMED (unsafe, log 1): the spec marks these bytes as general knowledge (G1, D15). -/
def defaultFontLow : List Byte :=
  [0xF0, 0x90, 0x90, 0x90, 0xF0,  0x20, 0x60, 0x20, 0x20, 0x70,
   0xF0, 0x10, 0xF0, 0x80, 0xF0,  0xF0, 0x10, 0xF0, 0x10, 0xF0] ++
  [0x90, 0x90, 0xF0, 0x10, 0x10,  0xF0, 0x80, 0xF0, 0x10, 0xF0,
   0xF0, 0x80, 0xF0, 0x90, 0xF0,  0xF0, 0x10, 0x20, 0x40, 0x40]

/-- The default of the parameter `FONT`, glyphs 8 to F (R51).
PRESUMED (unsafe, log 1), as `defaultFontLow`. -/
def defaultFontHigh : List Byte :=
  [0xF0, 0x90, 0xF0, 0x90, 0xF0,  0xF0, 0x90, 0xF0, 0x10, 0xF0,
   0xF0, 0x90, 0xF0, 0x90, 0x90,  0xE0, 0x90, 0xE0, 0x90, 0xE0] ++
  [0xF0, 0x80, 0x80, 0x80, 0xF0,  0xE0, 0x90, 0x90, 0x90, 0xE0,
   0xF0, 0x80, 0xF0, 0x80, 0xF0,  0xF0, 0x80, 0xF0, 0x80, 0x80]

/-- The default of the parameter `FONT` (R51, D15): what `State.reset` takes; `State.resetWith` takes any font.
PRESUMED (unsafe, log 1). -/
def defaultFont : Vector Byte 80 := ⟨(defaultFontLow ++ defaultFontHigh).toArray, by decide⟩

/-- The free value of the machine: the random byte of the `n`-th draw that the host has not supplied (R97, R164, D20, U10).
It has no body, so nothing can be proved of its values; log 2 (safe). -/
opaque randomByte : Nat → BitVec 8

end Sys2Proof.Config
end

