-- ==== Sys2Proof/Machine/State.lean ====
section
/-! DEFINITION. The architectural state of rule R20, plain data; the state after reset (R38, R200); the fault report
(R171, R172); the reasons a step stops. -/

namespace Sys2Proof.Machine

/-- The display buffer: 32 rows of 64 cells, row 0 at the top, column 0 at the left, `true` = on (R31). -/
abbrev Frame := Vector (Vector Bool 64) 32

/-- The state of the core (R20), and three fields of the model's own: `font`, `rndSeq`, `draws`. -/
structure State where
  /-- `V[0..15]`; `V[15]` is also the flag VF (R21, R22). -/
  v : Vector Byte 16
  /-- The index register `I` (R24). -/
  i : Word
  /-- The program counter (R25). -/
  pc : Word
  /-- The return stack (R27). -/
  stack : Vector Word 16
  /-- The number of return addresses held, 5 bits (R28). -/
  sp : BitVec 5
  /-- The delay timer (R29). -/
  dt : Byte
  /-- The sound timer (R30). -/
  st : Byte
  /-- The display buffer (R31). -/
  fb : Frame
  /-- The key state, `true` = pressed; written by the host only (R32). -/
  k : Vector Bool 16
  /-- The current opcode (R33). -/
  opc : Word
  /-- Memory (R34, R50): the bytes that differ from their reset contents, addresses rising. -/
  mem : List Host.Cell
  /-- The model's own: the implementation parameter `FONT` (R6, R51), which no step writes (log 1). -/
  font : Vector Byte 80
  /-- The model's own: the bytes of the host's random sequence not yet consumed (R97, log 2). -/
  rndSeq : List Byte
  /-- The model's own: how many free random bytes have been drawn; it indexes `Config.randomByte` (R97, log 2). -/
  draws : Nat
  deriving DecidableEq, Repr

/-- The state after reset for a given `FONT` (R38, R39, R200): no memory byte is listed, because an unlisted byte reads as
its reset contents (`Memory.unlisted`).
DESIGN CHOICE (log 2): `rndSeq` empty and `draws` 0. -/
def State.resetWith (font : Vector Byte 80) : State where
  v := Vector.replicate 16 0
  i := 0
  pc := Config.pcReset
  stack := Vector.replicate 16 0
  sp := 0
  dt := 0
  st := 0
  fb := Vector.replicate 32 (Vector.replicate 64 false)
  k := Vector.replicate 16 false
  opc := 0
  mem := []
  font := font
  rndSeq := []
  draws := 0

/-- The state after reset with the default `FONT` of rule R51.
PRESUMED (unsafe, log 1): the font bytes. -/
def State.reset : State := State.resetWith Config.defaultFont

/-- The fault causes of rule R171. -/
inductive FaultCause where
  /-- Code 1: the fetch stage, when PC > 0xFFE (R91). -/
  | fetchOutOfBounds
  /-- Code 2: Dxyn and Fx65, a read range past 0xFFF (R146, R152). -/
  | memReadOutOfBounds
  /-- Code 3: Fx33 and Fx55, a write range past 0xFFF (R144, R145). -/
  | memWriteOutOfBounds
  /-- Code 4: 2nnn at SP = 16 (R103). -/
  | stackOverflow
  /-- Code 5: 00EE at SP = 0 (R101). -/
  | stackUnderflow
  /-- Code 6: Ex9E and ExA1 with Vx > 15 (R165, R166). -/
  | keyIndexOutOfRange
  deriving DecidableEq, Repr

/-- The fault report of rule R172. -/
structure FaultInfo where
  /-- The code of rule R171. -/
  code : BitVec 3
  /-- The address of the faulting instruction. -/
  fpc : Word
  /-- The fetched word; for a fetch fault the value `OPC` held before the cycle. -/
  opcode : Word
  /-- The last column of rule R171, zero-extended. -/
  value : Word
  deriving DecidableEq, Repr

/-- The outcome `Fault(cause, info, state')` of rules R10 and R172. Each carries the report and the state the fault leaves
(R178), from which the host may go on (R179). Every one is the spec's own outcome, so none is a departure: safe. -/
inductive Fault where
  /-- Raised by the fetch stage of any cycle, when PC > 0xFFE (R91). Safe. -/
  | fetchOutOfBounds (info : FaultInfo) (after : State)
  /-- Raised by Dxyn and Fx65, when the bytes read would pass 0xFFF (R146, R152). Safe. -/
  | memReadOutOfBounds (info : FaultInfo) (after : State)
  /-- Raised by Fx33 and Fx55, when the bytes written would pass 0xFFF (R144, R145). Safe. -/
  | memWriteOutOfBounds (info : FaultInfo) (after : State)
  /-- Raised by 2nnn, when the stack holds 16 addresses (R103). Safe. -/
  | stackOverflow (info : FaultInfo) (after : State)
  /-- Raised by 00EE, when the stack holds none (R101). Safe. -/
  | stackUnderflow (info : FaultInfo) (after : State)
  /-- Raised by Ex9E and ExA1, when Vx > 15 (R165, R166). Safe. -/
  | keyIndexOutOfRange (info : FaultInfo) (after : State)
  deriving DecidableEq, Repr

/-- Why the model gives a step no meaning. -/
inductive Refusal where
  /-- Raised by an arm of `exec` whose instruction has no meaning yet; no arm raises it now. Safe. -/
  | notModelled (mnemonic : String)
  /-- Raised by 2nnn and 00EE when SP holds 17 to 31, values that rule R28 calls unreachable and for which STACK has no
  entry. Safe (log 5): the model stops where the spec gives no behaviour, and no run from reset gets there. -/
  | stackPointerUnreachable (sp : BitVec 5)
  deriving DecidableEq, Repr

/-- What executing an instruction, or one cycle, yields. -/
abbrev Result := Host.Outcome State Fault Refusal

end Sys2Proof.Machine
end

