-- ==== Sys2Proof/Machine/Ops.lean ====
section
/-! DEFINITION. The named operations over registers, memory, stack, keys, display and timers; raising a fault (R171, R172,
R177, R178); fetch, advance and tick, the stages around a handler (R91, R92, R95). Every read and write of a piece of state
goes through here. -/

namespace Sys2Proof.Machine

/-! ### Registers: one update per field of the state -/

/-- `V[x]` (R9, R21). -/
def State.readV (s : State) (x : Nibble) : Byte := s.v[x.toNat]'(x.isLt)

/-- `V[x] <- b` (R9, R21); no register is hardwired (R23). -/
def State.writeV (s : State) (x : Nibble) (b : Byte) : State := { s with v := s.v.set x.toNat b x.isLt }

/-- `I <- w` (R24). -/
def State.setI (s : State) (w : Word) : State := { s with i := w }

/-- `PC <- w` (R25). -/
def State.setPc (s : State) (w : Word) : State := { s with pc := w }

/-- `SP <- n` (R28). -/
def State.setSp (s : State) (n : BitVec 5) : State := { s with sp := n }

/-- `STACK[n]` (R27). -/
def State.readStack (s : State) (n : Fin 16) : Word := s.stack[n]

/-- `STACK[n] <- w` (R27). -/
def State.writeStack (s : State) (n : Fin 16) (w : Word) : State := { s with stack := s.stack.set n w }

/-- `DT <- b` (R29). -/
def State.setDt (s : State) (b : Byte) : State := { s with dt := b }

/-- `ST <- b` (R30). -/
def State.setSt (s : State) (b : Byte) : State := { s with st := b }

/-- Replace the display buffer (R31). -/
def State.setFb (s : State) (f : Frame) : State := { s with fb := f }

/-- `K <- k`: the host's write of all 16 keys (R32, R204). -/
def State.setK (s : State) (k : Vector Bool 16) : State := { s with k := k }

/-- `OPC <- w` (R33). -/
def State.setOpc (s : State) (w : Word) : State := { s with opc := w }

/-- Replace the list of memory cells. -/
def State.setMem (s : State) (m : List Host.Cell) : State := { s with mem := m }

/-- Replace the random input that is still to come (R97): the host's sequence and the count of free draws. -/
def State.setRnd (s : State) (bytes : List Byte) (n : Nat) : State := { s with rndSeq := bytes, draws := n }

/-! ### Memory (R50 to R57) -/

/-- What a memory address that is not listed reads as: its reset contents (R51, R38), `FONT` at 0x050 and 0 elsewhere. -/
def Memory.unlisted (font : Vector Byte 80) (a : Nat) : Byte :=
  if h : Config.fontBase ≤ a ∧ a - Config.fontBase < 80 then font[a - Config.fontBase]'h.2 else 0

/-- The byte at address `a` (R9, R57: no side effect). -/
def Memory.read (font : Vector Byte 80) : List Host.Cell → Nat → Byte
  | [], a => Memory.unlisted font a
  | (b, v) :: rest, a => if b = a then v else Memory.read font rest a

/-- List the byte `v` at address `a`, in its place by address. -/
def Memory.insert (a : Nat) (v : Byte) : List Host.Cell → List Host.Cell
  | [] => [(a, v)]
  | (b, w) :: rest =>
    if a < b then (a, v) :: (b, w) :: rest
    else if a = b then (a, v) :: rest
    else (b, w) :: Memory.insert a v rest

/-- Take the address `a` off the list. -/
def Memory.erase (a : Nat) (m : List Host.Cell) : List Host.Cell := m.filter (fun c => c.1 != a)

/-- Write one byte (R57: exactly the addressed byte changes); the reset contents are never listed, so equal memories are
equal lists. -/
def Memory.write (font : Vector Byte 80) (m : List Host.Cell) (a : Nat) (v : Byte) : List Host.Cell :=
  if v = Memory.unlisted font a then Memory.erase a m else Memory.insert a v m

/-- Addresses strictly rise along the list, starting above or at `low`. -/
def Memory.rising : Nat → List Host.Cell → Bool
  | _, [] => true
  | low, (a, _) :: rest => decide (low ≤ a) && Memory.rising (a + 1) rest

/-- The canonical form: addresses strictly rising, all inside `M`, no entry equal to what an unlisted address reads as. -/
def Memory.wf (font : Vector Byte 80) (m : List Host.Cell) : Bool :=
  Memory.rising 0 m && m.all (fun c => decide (c.1 < Config.memSize) && c.2 != Memory.unlisted font c.1)

/-- Whether every byte of the access range `base .. base+len-1` lies in `M` (R55): natural numbers, no wrap; a range of
no bytes always does (D6). -/
def inMemory (base len : Nat) : Bool := len == 0 || decide (base + len ≤ Config.memSize)

/-- `MemRead(a, 1)` for an address the caller has checked (R9). -/
def State.load (s : State) (a : Nat) : Byte := Memory.read s.font s.mem a

/-- `MemWrite(a, 1, v)` for an address the caller has checked (R9). -/
def State.store (s : State) (a : Nat) (v : Byte) : State := s.setMem (Memory.write s.font s.mem a v)

/-- The `n` bytes at `a .. a+n-1`, ascending (R57). -/
def State.loadBytes (s : State) (a : Nat) : Nat → List Byte
  | 0 => []
  | n + 1 => s.load a :: s.loadBytes (a + 1) n

/-- Store bytes at `a, a+1, ...`, ascending (R57). -/
def State.storeBytes (s : State) (a : Nat) : List Byte → State
  | [] => s
  | b :: rest => (s.store a b).storeBytes (a + 1) rest

/-! ### Faults (section 5 of spec/60_exceptions.md) -/

/-- The codes of rule R171. -/
def FaultCause.code : FaultCause → BitVec 3
  | .fetchOutOfBounds => 1
  | .memReadOutOfBounds => 2
  | .memWriteOutOfBounds => 3
  | .stackOverflow => 4
  | .stackUnderflow => 5
  | .keyIndexOutOfRange => 6

/-- The outcome of a cause, its report and the state it leaves. -/
def Fault.ofCause : FaultCause → FaultInfo → State → Fault
  | .fetchOutOfBounds => .fetchOutOfBounds
  | .memReadOutOfBounds => .memReadOutOfBounds
  | .memWriteOutOfBounds => .memWriteOutOfBounds
  | .stackOverflow => .stackOverflow
  | .stackUnderflow => .stackUnderflow
  | .keyIndexOutOfRange => .keyIndexOutOfRange

/-- The cause of a fault. -/
def Fault.cause : Fault → FaultCause
  | .fetchOutOfBounds _ _ => .fetchOutOfBounds
  | .memReadOutOfBounds _ _ => .memReadOutOfBounds
  | .memWriteOutOfBounds _ _ => .memWriteOutOfBounds
  | .stackOverflow _ _ => .stackOverflow
  | .stackUnderflow _ _ => .stackUnderflow
  | .keyIndexOutOfRange _ _ => .keyIndexOutOfRange

/-- The report of a fault (R172). -/
def Fault.info : Fault → FaultInfo
  | .fetchOutOfBounds r _ => r
  | .memReadOutOfBounds r _ => r
  | .memWriteOutOfBounds r _ => r
  | .stackOverflow r _ => r
  | .stackUnderflow r _ => r
  | .keyIndexOutOfRange r _ => r

/-- The state a fault leaves (R178), from which the host may issue the next cycle (R179). -/
def Fault.after : Fault → State
  | .fetchOutOfBounds _ s => s
  | .memReadOutOfBounds _ s => s
  | .memWriteOutOfBounds _ s => s
  | .stackOverflow _ s => s
  | .stackUnderflow _ s => s
  | .keyIndexOutOfRange _ s => s

/-- End the cycle with a fault of the instruction at `fpc`: the report of rule R172, and the state as it stands, which is
the state after the advance stage for a handler and the untouched state for a fetch (R177, R178). -/
def raiseAt (fpc : Word) (cause : FaultCause) (value : Word) (s : State) : Result :=
  .fault (Fault.ofCause cause { code := cause.code, fpc := fpc, opcode := s.opc, value := value } s)

/-- `raise Fault(cause, value)` in a handler (R9): `PC` already stands at the instruction's address plus 2 (R92), so the
faulting instruction is at `PC - 2`. -/
def raise (cause : FaultCause) (value : Word) (s : State) : Result := raiseAt (s.pc - 2) cause value s

/-! ### Display (R31, R150, R152) -/

/-- `FB[r][c]`; a position outside the grid holds no pixel. -/
def cellAt (f : Frame) (r c : Nat) : Bool := if h : r < 32 ∧ c < 64 then (f[r]'h.1)[c]'h.2 else false

/-- `FB[r][c] <- FB[r][c] xor 1`; a position outside the grid is clipped (R152, D7). -/
def toggleCell (f : Frame) (r c : Nat) : Frame :=
  if h : r < 32 ∧ c < 64 then f.set r ((f[r]'h.1).set c (!(f[r]'h.1)[c]'h.2) h.2) h.1 else f

/-- Every cell off (R151). -/
def blankFrame : Frame := Vector.replicate 32 (Vector.replicate 64 false)

/-- Draw one set sprite bit: toggle its cell, and note a collision if the cell was on (R152). -/
def drawPixel (d : Frame × Bool) (r c : Nat) : Frame × Bool := (toggleCell d.1 r c, d.2 || cellAt d.1 r c)

/-- Draw the sprite bits `b[7-c]` for `c = from .. 7` of one row on display row `r`, bit `7 - c` at column `x0 + c` (R150,
G2); `left` is how many bits are still to come. -/
def drawBits (d : Frame × Bool) (r x0 : Nat) (b : Byte) : Nat → Frame × Bool
  | 0 => d
  | left + 1 =>
    drawBits (if b.getLsbD left then drawPixel d r (x0 + (7 - left)) else d) r x0 b left

/-- Draw the sprite rows from display row `r` down (R150, R152). -/
def drawRows (d : Frame × Bool) (r x0 : Nat) : List Byte → Frame × Bool
  | [] => d
  | b :: rest => drawRows (drawBits d r x0 b 8) (r + 1) x0 rest

/-! ### Keys (R32, R167) -/

/-- The least index, counted from `index`, of a pressed key in a list of key states; none if none is pressed (R167, D9). -/
def leastPressedFrom (index : Nat) : List Bool → Option Nat
  | [] => none
  | pressed :: rest => if pressed then some index else leastPressedFrom (index + 1) rest

/-- The least `k` with `K[k] = 1` (R167, D9). -/
def State.leastPressed (s : State) : Option Nat := leastPressedFrom 0 s.k.toList

/-! ### The random input (R97, R164) -/

/-- The byte `rnd` that a draw receives: the next of the host's sequence, or a free value where the host has named none
(R97, D20, U10; log 2). -/
def State.rnd (s : State) : Byte :=
  match s.rndSeq with
  | b :: _ => b
  | [] => Config.randomByte s.draws

/-- The draw has been made: the sequence advances, or the free value's index does (R97). -/
def State.advanceRnd (s : State) : State :=
  match s.rndSeq with
  | _ :: rest => s.setRnd rest s.draws
  | [] => s.setRnd [] (s.draws + 1)

/-! ### The stages around a handler (R91, R92, R95) -/

/-- Stage 1: the word at `PC`, big-endian, or none when it does not lie in `M` (R52, R55, R91). -/
def State.fetchWord (s : State) : Option Word :=
  if inMemory s.pc.toNat 2 then some (wordOfBytes (s.load s.pc.toNat) (s.load (s.pc.toNat + 1))) else none

/-- Stages 1 and 2: `OPC` takes the word and `PC` moves past it (R91, R92). -/
def State.advance (s : State) (w : Word) : State := (s.setOpc w).setPc (s.pc + 2)

/-- One timer's tick: down by 1, held at 0 (R95). -/
def tickTimer (t : Byte) : Byte := if t = 0 then 0 else t - 1

/-- Stage 5: both timers tick independently (R95). -/
def State.tick (s : State) : State := (s.setDt (tickTimer s.dt)).setSt (tickTimer s.st)

/-- The end of a cycle: the tick follows a handler that completed, and no other (R94, R95, R178). -/
def finishCycle : Result → Result
  | .next s => .next s.tick
  | .fault f => .fault f
  | .refused r => .refused r

end Sys2Proof.Machine
end

