-- ==== Sys2Proof/Machine/Flags.lean ====
section
/-! DEFINITION. Every value the machine writes into its one flag VF (R36), and the order of the result write and the flag
write (R120). -/

namespace Sys2Proof.Machine

/-- The register VF (R22). -/
def vf : Nibble := 0xF

/-- A flag as a byte, 0 or 1 (R22, R120). -/
def flagByte (b : Bool) : Byte := if b then 1 else 0

/-- The carry of 8xy4: the unreduced sum exceeds 255 (R127). -/
def carryOf (a b : Byte) : Bool := decide (255 < a.toNat + b.toNat)

/-- The flag of 8xy5 and 8xy7: the minuend is strictly greater (R128, R130, C3). -/
def greaterOf (minuend subtrahend : Byte) : Bool := decide (subtrahend.toNat < minuend.toNat)

/-- The bit 8xy6 shifts out: bit 0 of the original (R129). -/
def lowBitOf (a : Byte) : Bool := a.getLsbD 0

/-- The bit 8xyE shifts out: bit 7 of the original (R131). -/
def highBitOf (a : Byte) : Bool := a.getLsbD 7

/-- Write VF as a flag (R36). -/
def State.setFlag (s : State) (flag : Bool) : State := s.writeV vf (flagByte flag)

/-- Write a result and then its flag, the flag last, so that it is what VF holds when `x = 0xF` (R120, D10). -/
def State.writeResult (s : State) (x : Nibble) (result : Byte) (flag : Bool) : State :=
  (s.writeV x result).setFlag flag

end Sys2Proof.Machine
end

