-- ==== Sys2Proof/Machine/Alu.lean ====
section
/-! DEFINITION. The meanings of the register load and 8-bit arithmetic and logic instructions (spec/42_alu.md). Operands
are read before any write, and a flag is written last (R120); arithmetic wraps mod 256 (R132). -/

namespace Sys2Proof.Machine

/-- 6xkk, LD Vx, kk (R121). -/
def execLdImm (x : Nibble) (kk : Byte) (s : State) : Result := .next (s.writeV x kk)

/-- 7xkk, ADD Vx, kk (R122): no flag. -/
def execAddImm (x : Nibble) (kk : Byte) (s : State) : Result := .next (s.writeV x (s.readV x + kk))

/-- 8xy0, LD Vx, Vy (R123). -/
def execLdReg (x y : Nibble) (s : State) : Result := .next (s.writeV x (s.readV y))

/-- 8xy1, OR Vx, Vy (R124): VF is not reset (D16). -/
def execOrReg (x y : Nibble) (s : State) : Result := .next (s.writeV x (s.readV x ||| s.readV y))

/-- 8xy2, AND Vx, Vy (R125): VF is not reset (D16). -/
def execAndReg (x y : Nibble) (s : State) : Result := .next (s.writeV x (s.readV x &&& s.readV y))

/-- 8xy3, XOR Vx, Vy (R126): VF is not reset (D16). -/
def execXorReg (x y : Nibble) (s : State) : Result := .next (s.writeV x (s.readV x ^^^ s.readV y))

/-- 8xy4, ADD Vx, Vy (R127). -/
def execAddReg (x y : Nibble) (s : State) : Result :=
  .next (s.writeResult x (s.readV x + s.readV y) (carryOf (s.readV x) (s.readV y)))

/-- 8xy5, SUB Vx, Vy (R128). -/
def execSubReg (x y : Nibble) (s : State) : Result :=
  .next (s.writeResult x (s.readV x - s.readV y) (greaterOf (s.readV x) (s.readV y)))

/-- 8xy6, SHR Vx (R129): Vy is not used (D16). -/
def execShr (x : Nibble) (s : State) : Result :=
  .next (s.writeResult x (s.readV x >>> 1) (lowBitOf (s.readV x)))

/-- 8xy7, SUBN Vx, Vy (R130). -/
def execSubn (x y : Nibble) (s : State) : Result :=
  .next (s.writeResult x (s.readV y - s.readV x) (greaterOf (s.readV y) (s.readV x)))

/-- 8xyE, SHL Vx (R131): Vy is not used (D16). -/
def execShl (x : Nibble) (s : State) : Result :=
  .next (s.writeResult x (s.readV x <<< 1) (highBitOf (s.readV x)))

end Sys2Proof.Machine
end

