-- ==== Sys2Proof/Machine/Operands.lean ====
section
/-! DEFINITION. The operand forms: immediates (R73), base plus offset through `I` (R140), the register block of Fx55 and
Fx65 (R145, R146), sprite coordinates (R152), the key index (R165), and the skip (R108). -/

namespace Sys2Proof.Machine

/-- `zext_16(nnn)` (R73). -/
def addrOf (nnn : Addr) : Word := nnn.setWidth 16

/-- `zext_16(b)` of a byte (R142, R172). -/
def wordOf (b : Byte) : Word := b.setWidth 16

/-- The base of a data access: `I`, as a natural number, so that offsets do not wrap (R55, R140). -/
def State.base (s : State) : Nat := s.i.toNat

/-- The length of the block V0 to Vx (R145, R146). -/
def blockLength (x : Nibble) : Nat := x.toNat + 1

/-- The values of V0 to Vx, lowest register first (R53, R145). -/
def State.block (s : State) (x : Nibble) : List Byte := s.v.toList.take (blockLength x)

/-- `V[k] <- b` for the bytes of a list, from register number `k` up (R146). -/
def State.writeBlock (s : State) (k : Nat) : List Byte → State
  | [] => s
  | b :: rest => (s.writeV (BitVec.ofNat 4 k) b).writeBlock (k + 1) rest

/-- The start column `V[x] mod 64` (R152). -/
def State.spriteColumn (s : State) (x : Nibble) : Nat := (s.readV x).toNat % 64

/-- The start row `V[y] mod 32` (R152). -/
def State.spriteRow (s : State) (y : Nibble) : Nat := (s.readV y).toNat % 32

/-- The three decimal digits of a byte, hundreds first (R53, R144). -/
def digitsOf (b : Byte) : List Byte :=
  [BitVec.ofNat 8 (b.toNat / 100), BitVec.ofNat 8 (b.toNat / 10 % 10), BitVec.ofNat 8 (b.toNat % 10)]

/-- Skip the next instruction when the condition holds (R108 (d)). -/
def skipIf (condition : Bool) (s : State) : State := if condition then s.setPc (s.pc + 2) else s

/-- Run an instruction that tests the key numbered `V[x]`: above 15 it faults, and the number is not masked (R165, R166, D8). -/
def withKey (x : Nibble) (s : State) (use : Bool → State) : Result :=
  if h : (s.readV x).toNat < 16 then .next (use (s.k[(s.readV x).toNat]'h))
  else raise .keyIndexOutOfRange (wordOf (s.readV x)) s

end Sys2Proof.Machine
end

