-- ==== Sys2Proof/Machine/Display.lean ====
section
/-! DEFINITION. The meanings of the display instructions (spec/44_display.md). -/

namespace Sys2Proof.Machine

/-- 00E0, CLS (R151). -/
def execCls (s : State) : Result := .next (s.setFb blankFrame)

/-- Dxyn, DRW Vx, Vy, n (R152): coordinates are read before VF is written, every one of the `n` bytes is read, pixels
outside the grid are clipped, VF is the collision in every case. -/
def execDrw (x y n : Nibble) (s : State) : Result :=
  if inMemory s.base n.toNat then
    .next ((s.setFb (drawRows (s.fb, false) (s.spriteRow y) (s.spriteColumn x) (s.loadBytes s.base n.toNat)).1).setFlag
      (drawRows (s.fb, false) (s.spriteRow y) (s.spriteColumn x) (s.loadBytes s.base n.toNat)).2)
  else raise .memReadOutOfBounds s.i s

end Sys2Proof.Machine
end

