-- ==== Sys2Proof/Machine/Flow.lean ====
section
/-! DEFINITION. The meanings of the control transfer instructions and of the no-op (spec/41_flow.md). In each, `PC` already
holds the instruction's address plus 2 (R92), and the tick follows outside (R95). -/

namespace Sys2Proof.Machine

/-- NOP, any unmapped word: nothing (R100); the word is not looked at. -/
def execNop (_word : Word) (s : State) : Result := .next s

/-- 00EE, RET (R101). -/
def execRet (s : State) : Result :=
  if s.sp = 0 then raise .stackUnderflow (s.sp.setWidth 16) s
  else if h : s.sp.toNat - 1 < 16 then .next ((s.setSp (s.sp - 1)).setPc (s.readStack ⟨s.sp.toNat - 1, h⟩))
  else .refused (.stackPointerUnreachable s.sp)

/-- 1nnn, JP nnn (R102). -/
def execJp (nnn : Addr) (s : State) : Result := .next (s.setPc (addrOf nnn))

/-- 2nnn, CALL nnn (R103): the pushed value is the advanced `PC`. -/
def execCall (nnn : Addr) (s : State) : Result :=
  if s.sp = 16 then raise .stackOverflow (s.sp.setWidth 16) s
  else if h : s.sp.toNat < 16 then
    .next (((s.writeStack ⟨s.sp.toNat, h⟩ s.pc).setSp (s.sp + 1)).setPc (addrOf nnn))
  else .refused (.stackPointerUnreachable s.sp)

/-- 3xkk, SE Vx, kk (R104). -/
def execSeImm (x : Nibble) (kk : Byte) (s : State) : Result := .next (skipIf (s.readV x == kk) s)

/-- 4xkk, SNE Vx, kk (R105). -/
def execSneImm (x : Nibble) (kk : Byte) (s : State) : Result := .next (skipIf (s.readV x != kk) s)

/-- 5xy0, SE Vx, Vy (R106). -/
def execSeReg (x y : Nibble) (s : State) : Result := .next (skipIf (s.readV x == s.readV y) s)

/-- 9xy0, SNE Vx, Vy (R107). -/
def execSneReg (x y : Nibble) (s : State) : Result := .next (skipIf (s.readV x != s.readV y) s)

/-- Bnnn, JP V0, nnn (R109): the register is always V0, and the sum is not reduced mod 4096 (D18). -/
def execJpV0 (nnn : Addr) (s : State) : Result := .next (s.setPc (addrOf nnn + wordOf (s.readV 0)))

end Sys2Proof.Machine
end

