-- ==== Sys2Proof/Machine/IndexMem.lean ====
section
/-! DEFINITION. The meanings of the index register and memory instructions (spec/43_index_mem.md). The whole range of an
access is checked before any byte moves (R56), and `I` is not changed by an access through it (R140, D16). -/

namespace Sys2Proof.Machine

/-- Annn, LD I, nnn (R141). -/
def execLdI (nnn : Addr) (s : State) : Result := .next (s.setI (addrOf nnn))

/-- Fx1E, ADD I, Vx (R142): mod 65536, no flag (D17). -/
def execAddI (x : Nibble) (s : State) : Result := .next (s.setI (s.i + wordOf (s.readV x)))

/-- Fx29, LD F, Vx (R143): all 8 bits of Vx count, and nothing is accessed (D17). -/
def execLdF (x : Nibble) (s : State) : Result :=
  .next (s.setI (BitVec.ofNat 16 (Config.fontBase + 5 * (s.readV x).toNat)))

/-- Fx33, LD B, Vx (R144). -/
def execLdB (x : Nibble) (s : State) : Result :=
  if inMemory s.base 3 then .next (s.storeBytes s.base (digitsOf (s.readV x)))
  else raise .memWriteOutOfBounds s.i s

/-- Fx55, LD [I], Vx (R145). -/
def execStoreRegs (x : Nibble) (s : State) : Result :=
  if inMemory s.base (blockLength x) then .next (s.storeBytes s.base (s.block x))
  else raise .memWriteOutOfBounds s.i s

/-- Fx65, LD Vx, [I] (R146). -/
def execLoadRegs (x : Nibble) (s : State) : Result :=
  if inMemory s.base (blockLength x) then .next (s.writeBlock 0 (s.loadBytes s.base (blockLength x)))
  else raise .memReadOutOfBounds s.i s

end Sys2Proof.Machine
end

