-- ==== Sys2Proof/Machine/TimerKeyRnd.lean ====
section
/-! DEFINITION. The meanings of the timer, random and key instructions (spec/45_timer_key_rnd.md). The tick of the same
cycle follows outside (R95). -/

namespace Sys2Proof.Machine

/-- Fx07, LD Vx, DT (R161): the value before this cycle's tick. -/
def execLdVxDt (x : Nibble) (s : State) : Result := .next (s.writeV x s.dt)

/-- Fx15, LD DT, Vx (R162). -/
def execLdDtVx (x : Nibble) (s : State) : Result := .next (s.setDt (s.readV x))

/-- Fx18, LD ST, Vx (R163). -/
def execLdStVx (x : Nibble) (s : State) : Result := .next (s.setSt (s.readV x))

/-- Cxkk, RND Vx, kk (R164). -/
def execRnd (x : Nibble) (kk : Byte) (s : State) : Result := .next (s.advanceRnd.writeV x (s.rnd &&& kk))

/-- Ex9E, SKP Vx (R165). -/
def execSkp (x : Nibble) (s : State) : Result := withKey x s (fun pressed => skipIf pressed s)

/-- ExA1, SKNP Vx (R166). -/
def execSknp (x : Nibble) (s : State) : Result := withKey x s (fun pressed => skipIf (!pressed) s)

/-- Fx0A, LD Vx, K (R167): a poll, which goes back to its own address when no key is pressed. -/
def execLdVxK (x : Nibble) (s : State) : Result :=
  match s.leastPressed with
  | some k => .next (s.writeV x (BitVec.ofNat 8 k))
  | none => .next (s.setPc (s.pc - 2))

end Sys2Proof.Machine
end

