-- ==== Sys2Proof/Machine/Step.lean ====
section
/-! DEFINITION. The `cycle` event (R90 to R96): fetch, advance, decode, execute, timer tick. -/

namespace Sys2Proof.Machine

/-- One cycle (R90). A fetch fault reports the stale `OPC` and changes nothing (R91, R172, R178). -/
def step (s : State) : Host.Outcome State Fault Refusal :=
  match s.fetchWord with
  | none => raiseAt s.pc .fetchOutOfBounds s.pc s
  | some w => finishCycle (exec (decodeWord w) (s.advance w))

/-- The state with an instruction of the opcode table stored where `step` fetches next, its bytes as memory holds them
(R52); where `PC` does not point into memory there is no such place, and the state stays as it is. -/
def State.withFetchWord (s : State) (nbits w : Nat) : State :=
  if inMemory s.pc.toNat 2 then
    (s.store s.pc.toNat (highByte (tableWord nbits w))).store (s.pc.toNat + 1) (lowByte (tableWord nbits w))
  else s

end Sys2Proof.Machine
end

