-- ==== Sys2Proof/Machine/HostMoves.lean ====
section
/-! DEFINITION. What the host can do to the core (R204), beside issuing `step`: load a ROM (R65, R201), write the keys
(R32), present a random byte with a cycle (R97), go on after a fault (R179), read the display and the sound timer. -/

namespace Sys2Proof.Machine

/-- LoadROM (R65, R201): byte `j` of the image goes to `M[0x200 + j]`; an image of more than 3584 bytes is refused by the
loader and leaves no state (D27). The host does it once, after reset and before the first cycle. -/
def State.loadRom (s : State) (image : List Byte) : Option State :=
  if image.length ≤ Config.romMax then some (s.storeBytes Config.romBase image) else none

/-- SetKeys, between cycles, any number of times (R32, R204). -/
def State.setKeys (s : State) (k : Vector Bool 16) : State := s.setK k

/-- Give the core the random bytes that its next draws receive (R97). -/
def State.supplyRandom (s : State) (bytes : List Byte) : State := s.setRnd bytes s.draws

/-- ReadDisplay, between cycles, with no effect on the core (R204). -/
def State.readDisplay (s : State) : Frame := s.fb

/-- ReadSoundTimer, between cycles, with no effect on the core (R30, R204, D23). -/
def State.readSoundTimer (s : State) : Byte := s.st

/-- The launch state of a run (R201): reset, then the ROM, then the keys the host wrote; none if the loader refuses. -/
def launchState (font : Vector Byte 80) (image : List Byte) (k : Vector Bool 16) : Option State :=
  match (State.resetWith font).loadRom image with
  | some s => some (s.setKeys k)
  | none => none

/-- The same outcome with the random input put back to empty: the byte presented with a cycle is not kept after it (R97). -/
def dropRandom : Result → Result
  | .next s => .next (s.setRnd [] s.draws)
  | .fault f => .fault (Fault.ofCause f.cause f.info (f.after.setRnd [] f.after.draws))
  | .refused r => .refused r

/-- Cycle(rnd) (R90, R97, R204): one step with the byte `rnd` presented for it; only Cxkk uses it. -/
def cycleWith (rnd : Byte) (s : State) : Result := dropRandom (step (s.setRnd [rnd] s.draws))

/-- The host's choice to go on after a fault: an ordinary cycle from the state the fault left (R179). -/
def continueAfter (f : Fault) : Result := step f.after

/-- The moves of a run, between which nothing touches the core (R204, R205). -/
inductive HostMove where
  /-- SetKeys(k). -/
  | setKeys (k : Vector Bool 16)
  /-- Cycle(rnd). -/
  | cycle (rnd : Byte)
  deriving DecidableEq, Repr

/-- A run as the host sees it: the core's state, and outside it the sticky mark of rule R179 that a cycle has not
completed. -/
structure Session where
  state : State
  stopped : Bool
  deriving DecidableEq, Repr

/-- One move of the host (R204): after a fault the core stands in the state the fault left and the mark is set (R179). -/
def Session.move (r : Session) : HostMove → Session
  | .setKeys k => { r with state := r.state.setKeys k }
  | .cycle rnd =>
    match cycleWith rnd r.state with
    | .next s => { r with state := s }
    | .fault f => { state := f.after, stopped := true }
    | .refused _ => { r with stopped := true }

/-- The moves of a run, in order. -/
def Session.moves (r : Session) : List HostMove → Session
  | [] => r
  | m :: rest => (r.move m).moves rest

end Sys2Proof.Machine
end

