-- ==== Sys2Proof/WellFormed.lean ====
section
/-! DEFINITION. Which instruction terms stand for a word of the machine. An operand field may hold any value of its
width (R71, R73), so the one check is that a no-op carries a word that selects no other row (R82). -/

namespace Sys2Proof

/-- The words of rule R82: those that no row of the opcode table but the last one selects. -/
def isNopWord (w : Word) : Bool :=
  let op : Nibble := w.extractLsb' 12 4
  let low : Nibble := w.extractLsb' 0 4
  let byte : Byte := w.extractLsb' 0 8
  (op == 0x0 && low != 0x0 && low != 0xE) ||
  (op == 0x8 && (low == 0x8 || low == 0x9 || low == 0xA || low == 0xB || low == 0xC || low == 0xD || low == 0xF)) ||
  (op == 0xE && low != 0x1 && low != 0xE) ||
  (op == 0xF && byte != 0x07 && byte != 0x0A && byte != 0x15 && byte != 0x18 && byte != 0x1E && byte != 0x29 &&
    byte != 0x33 && byte != 0x55 && byte != 0x65)

/-- An instruction term is well-formed: it stands for some word of the machine. -/
def Instr.wellFormed : Instr → Bool
  | .nop word => isNopWord word
  | .cls | .ret | .jp _ | .call _ | .seImm _ _ | .sneImm _ _ | .seReg _ _ | .ldImm _ _ | .addImm _ _
  | .ldReg _ _ | .orReg _ _ | .andReg _ _ | .xorReg _ _ | .addReg _ _ | .subReg _ _ | .shr _ | .subn _ _
  | .shl _ | .sneReg _ _ | .ldI _ | .jpV0 _ | .rnd _ _ | .drw _ _ _ | .skp _ | .sknp _ | .ldVxDt _
  | .ldVxK _ | .ldDtVx _ | .ldStVx _ | .addI _ | .ldF _ | .ldB _ | .storeRegs _ | .loadRegs _ => true

end Sys2Proof
end

