-- ==== Sys2Proof/Safety.lean ====
section
/-! DEFINITION. The terms the statements use: the parts of the state a frame names, the invariant of a run, the fault
table of rule R171, and when two outcomes differ in one field only. -/

namespace Sys2Proof.Machine

/-! ### Frames -/

/-- The parts of the state that some instruction changes. -/
inductive Part where
  /-- `V[0..15]`. -/
  | regs
  /-- `I`. -/
  | index
  /-- `PC`. -/
  | pc
  /-- `SP` and `STACK`. -/
  | stack
  /-- `DT`. -/
  | delay
  /-- `ST`. -/
  | sound
  /-- `FB`. -/
  | display
  /-- `M`. -/
  | memory
  /-- The random input still to come (R97). -/
  | random
  deriving DecidableEq, Repr

/-- A part reads the same in both states: memory byte by byte, the display cell by cell, the registers one by one. -/
def SamePart (s t : State) : Part → Prop
  | .regs => ∀ r, t.readV r = s.readV r
  | .index => t.i = s.i
  | .pc => t.pc = s.pc
  | .stack => t.sp = s.sp ∧ ∀ n, t.readStack n = s.readStack n
  | .delay => t.dt = s.dt
  | .sound => t.st = s.st
  | .display => ∀ r c, cellAt t.fb r c = cellAt s.fb r c
  | .memory => ∀ a, t.load a = s.load a
  | .random => t.rndSeq = s.rndSeq ∧ t.draws = s.draws

/-- From `s` to `t` only the listed parts change; the key state, the current opcode and `FONT` never do. -/
def ChangesOnly (parts : List Part) (s t : State) : Prop :=
  (∀ p, p ∉ parts → SamePart s t p) ∧ t.k = s.k ∧ t.opc = s.opc ∧ t.font = s.font

/-- Only the registers `P` names change, and nothing that is not a register. -/
def ChangesOnlyRegs (P : Nibble → Prop) (s t : State) : Prop :=
  ChangesOnly [.regs] s t ∧ ∀ r, ¬ P r → t.readV r = s.readV r

/-! ### Writers -/

/-- The registers an instruction may write: its destination, VF for the six that set a flag (R36), the block of Fx65. -/
def writesRegister (i : Instr) (r : Nibble) : Bool :=
  match i with
  | .ldImm x _ | .addImm x _ | .ldReg x _ | .orReg x _ | .andReg x _ | .xorReg x _ | .rnd x _ | .ldVxDt x | .ldVxK x =>
    r == x
  | .addReg x _ | .subReg x _ | .shr x | .subn x _ | .shl x => r == x || r == vf
  | .drw _ _ _ => r == vf
  | .loadRegs x => decide (r.toNat ≤ x.toNat)
  | .cls | .ret | .jp _ | .call _ | .seImm _ _ | .sneImm _ _ | .seReg _ _ | .sneReg _ _ | .ldI _ | .jpV0 _ | .skp _ | .sknp _
  | .ldDtVx _ | .ldStVx _ | .addI _ | .ldF _ | .ldB _ | .storeRegs _ | .nop _ => false

/-- The instructions whose handler may write `PC`, as the writers' column of R37 names them: skips, 1nnn, 2nnn, Bnnn, 00EE,
Fx0A. -/
def writesPc (i : Instr) : Bool :=
  match i with
  | .seImm _ _ | .sneImm _ _ | .seReg _ _ | .sneReg _ _ | .skp _ | .sknp _ | .jp _ | .call _ | .jpV0 _ | .ret | .ldVxK _ => true
  | .cls | .ldImm _ _ | .addImm _ _ | .ldReg _ _ | .orReg _ _ | .andReg _ _ | .xorReg _ _ | .addReg _ _ | .subReg _ _ | .shr _
  | .subn _ _ | .shl _ | .ldI _ | .rnd _ _ | .drw _ _ _ | .ldVxDt _ | .ldDtVx _ | .ldStVx _ | .addI _ | .ldF _ | .ldB _
  | .storeRegs _ | .loadRegs _ | .nop _ => false

/-! ### The invariant of a run -/

/-- What holds at reset and after every cycle: the stack depth is in [0, 16] (R28), a stack entry is an advanced `PC` or 0
(R101, R26), `PC` has not wrapped (R26, D18), and memory is in the model's canonical form (log 11). -/
def State.Inv (s : State) : Prop :=
  s.sp.toNat ≤ 16 ∧ (∀ n, (s.readStack n).toNat ≤ 0x1000) ∧ s.pc.toNat ≤ 0x10FE ∧ Memory.wf s.font s.mem = true

/-! ### Faults -/

/-- The table of rule R171 for the execute stage: which instruction raises what, under which condition, reporting which
value; the conditions are written as the table has them. -/
def faultTable (i : Instr) (s : State) : Option (FaultCause × Word) :=
  match i with
  | .drw _ _ n => if 1 ≤ n.toNat ∧ 0xFFF < s.i.toNat + n.toNat - 1 then some (.memReadOutOfBounds, s.i) else none
  | .loadRegs x => if 0xFFF < s.i.toNat + x.toNat then some (.memReadOutOfBounds, s.i) else none
  | .ldB _ => if 0xFFF < s.i.toNat + 2 then some (.memWriteOutOfBounds, s.i) else none
  | .storeRegs x => if 0xFFF < s.i.toNat + x.toNat then some (.memWriteOutOfBounds, s.i) else none
  | .call _ => if s.sp.toNat = 16 then some (.stackOverflow, 16) else none
  | .ret => if s.sp.toNat = 0 then some (.stackUnderflow, 0) else none
  | .skp x | .sknp x =>
    if 15 < (s.readV x).toNat then some (.keyIndexOutOfRange, BitVec.ofNat 16 (s.readV x).toNat) else none
  | .cls | .jp _ | .seImm _ _ | .sneImm _ _ | .seReg _ _ | .ldImm _ _ | .addImm _ _ | .ldReg _ _ | .orReg _ _
  | .andReg _ _ | .xorReg _ _ | .addReg _ _ | .subReg _ _ | .shr _ | .subn _ _ | .shl _ | .sneReg _ _ | .ldI _
  | .jpV0 _ | .rnd _ _ | .ldVxDt _ | .ldVxK _ | .ldDtVx _ | .ldStVx _ | .addI _ | .ldF _ | .nop _ => none

/-! ### The display -/

/-- The sprite `bytes`, drawn with its first row on display row `y0` and its leftmost column on column `x0`, has a set bit
at row `r` and column `c`: bit `7 - (c - x0)` of the byte of sprite row `r - y0` (R150). Nothing wraps, and the grid's edge
is not looked at. -/
def spriteBit (bytes : List Byte) (y0 x0 r c : Nat) : Bool :=
  decide (y0 ≤ r) && decide (x0 ≤ c) && decide (c < x0 + 8) &&
    (match bytes[r - y0]? with
     | some b => b.getLsbD (7 - (c - x0))
     | none => false)

/-! ### Non-interference -/

/-- An outcome seen through `hide`, which overwrites what is to be ignored in a state: equal views are outcomes that agree
in all but that. -/
def viewThrough (hide : State → State) : Result → Result
  | .next s => .next (hide s)
  | .fault f => .fault (Fault.ofCause f.cause f.info (hide f.after))
  | .refused r => .refused r

end Sys2Proof.Machine
end

