-- ==== Sys2Proof/Certificates/Slice0/Obligations.lean ====
section
/-! DEFINITION. The statements for the provers, each from a rule of spec/. Where a clause rests on a choice that the spec
marks as its own (`[decision: D<n>]`) or on a log entry, the docstring says so. -/

open Sys2Proof Sys2Proof.Machine

/-! ### Encoding and decode (spec/30_encoding.md) -/

/-- Every well-formed instruction is decoded back from its canonical word and from its two bytes, high byte first, with the
rest of the stream left over (R52, R70 to R81). -/
def Obligations.DecodeOfEncodeIsIdentity : Prop :=
  ∀ i : Instr, i.wellFormed = true →
    decodeWord (encode i) = i ∧ ∀ rest, decodeBytes (encodeBytes i ++ rest) = .ok (i, rest)

/-- The decoder is total and gives a well-formed instruction; the canonical word of what it gives selects the same
instruction (R79, R80, R82). The aliases rest on decision D2 of the spec (log 6). -/
def Obligations.EveryWordDecodesWellFormed : Prop :=
  ∀ w : Word, (decodeWord w).wellFormed = true ∧ decodeWord (encode (decodeWord w)) = decodeWord w

/-- The two-level decoder of R74 to R79 gives what the table of R81 gives when read as R86 says: the row whose mask and match
fit, else the fallback. Which bits the masks leave out is decision D2 of the spec (C2; log 6). -/
def Obligations.DecoderAgreesWithOpcodeTable : Prop := ∀ w : Word, decodeWord w = decodeByTable w

/-- No word selects two of the 34 rows (R81). -/
def Obligations.OpcodeRowsAreDisjoint : Prop :=
  ∀ w : Word, opcodeTable.Pairwise (fun r q => ¬ (r.selects w = true ∧ q.selects w = true))

/-- The words that decode to the no-op, by op, the two middle nibbles and the low nibble, are those of R82's list, which the
spec marks as derived from R75 to R78. That exactly these are no-ops, and for instance 0x0000 and 0x5123 are not, rests on the
spec's own choice not to examine the other bits (decision D2, C2; log 6). -/
def Obligations.NoOpWordsAreExactlyTheListed : Prop :=
  ∀ op x y n : Nibble, (∃ word, decodeWord (op ++ x ++ y ++ n) = .nop word) ↔
    (op = 0x0 ∧ n ≠ 0x0 ∧ n ≠ 0xE) ∨
    (op = 0x8 ∧ n ∈ [0x8, 0x9, 0xA, 0xB, 0xC, 0xD, (0xF : Nibble)]) ∨
    (op = 0xE ∧ n ≠ 0x1 ∧ n ≠ 0xE) ∨
    (op = 0xF ∧ (y ++ n : Byte) ∉ [0x07, 0x0A, 0x15, 0x18, 0x1E, 0x29, 0x33, 0x55, (0x65 : Byte)])

/-- Words written out from the encodings of the spec decode to their instructions (the decode vectors of
spec/95_test_vectors.md). A sanity statement. Of these words 0x0000, 0x012E, 0x512F and 0xE1F1 are not canonical: what they select
is the spec's own choice (decision D2, C2; log 6). -/
def Obligations.SampleWordsDecode : Prop :=
  decodeWord 0x00E0 = .cls ∧ decodeWord 0x0000 = .cls ∧ decodeWord 0x012E = .ret ∧ decodeWord 0x0121 = .nop 0x0121 ∧
  decodeWord 0x1ABC = .jp 0xABC ∧ decodeWord 0x512F = .seReg 1 2 ∧ decodeWord 0x812E = .shl 1 ∧
  decodeWord 0x8014 = .addReg 0 1 ∧ decodeWord 0xA300 = .ldI 0x300 ∧ decodeWord 0xB123 = .jpV0 0x123 ∧
  decodeWord 0xC10F = .rnd 1 0x0F ∧ decodeWord 0xD5A7 = .drw 5 0xA 7 ∧ decodeWord 0xE19E = .skp 1 ∧
  decodeWord 0xE1F1 = .sknp 1 ∧ decodeWord 0xF117 = .nop 0xF117 ∧ decodeWord 0xF265 = .loadRegs 2

/-- The bits the decoder does not examine do not matter: every word of R80's list selects the same instruction as the
canonical one. The choice is the spec's own (decision D2, C2; log 6). -/
def Obligations.UnexaminedBitsDoNotMatter : Prop :=
  ∀ x y q p : Nibble,
    decodeWord (0x0#4 ++ q ++ p ++ 0x0#4) = .cls ∧ decodeWord (0x0#4 ++ q ++ p ++ 0xE#4) = .ret ∧
    decodeWord (0x5#4 ++ x ++ y ++ q) = .seReg x y ∧ decodeWord (0x9#4 ++ x ++ y ++ q) = .sneReg x y ∧
    decodeWord (0xE#4 ++ x ++ q ++ 0xE#4) = .skp x ∧ decodeWord (0xE#4 ++ x ++ q ++ 0x1#4) = .sknp x ∧
    decodeWord (0x8#4 ++ x ++ q ++ 0x6#4) = .shr x ∧ decodeWord (0x8#4 ++ x ++ q ++ 0xE#4) = .shl x

/-! ### The cycle (spec/40_step.md) -/

/-- When the two bytes at `PC` lie in memory (R91; the bound is decision D6, log 14), a cycle is: `OPC` takes the big-endian word,
`PC` advances by 2 (to at most 0x1000), the handler of the decoded word runs, and after it, and only when it completes, each
non-zero timer goes down by 1 (R52, R91 to R95). That a fault of the handler ends the cycle with no tick is the spec's own choice
(decision D4, log 4). The clause for a refusal exists by the model's choice (log 5): 00EE and 2nnn with `SP` from 17 to 31. -/
def Obligations.StepRunsDecodedInstruction : Prop :=
  ∀ s : State, s.pc.toNat ≤ 0xFFE →
    let w : Word := s.load s.pc.toNat ++ s.load (s.pc.toNat + 1)
    let s₁ : State := { s with opc := w, pc := s.pc + 2 }
    s₁.pc.toNat = s.pc.toNat + 2 ∧ s₁.pc.toNat ≤ 0x1000 ∧
    (∀ t, exec (decodeWord w) s₁ = .next t → step s = .next { t with
        dt := if 0 < t.dt.toNat then t.dt - 1 else t.dt, st := if 0 < t.st.toNat then t.st - 1 else t.st }) ∧
    (∀ f, exec (decodeWord w) s₁ = .fault f → step s = .fault f) ∧
    (∀ r, exec (decodeWord w) s₁ = .refused r → step s = .refused r)

/-- A cycle whose `PC` is above 0xFFE ends in the fetch fault and changes nothing; the report holds code 1, `PC` twice and the
`OPC` of before (R91, R172, R178). The bound, the report and the state left are the spec's own choices (D3, D4, D6). -/
def Obligations.FetchPastMemoryFaults : Prop :=
  ∀ s : State, 0xFFE < s.pc.toNat →
    step s = .fault (.fetchOutOfBounds { code := 1, fpc := s.pc, opcode := s.opc, value := s.pc } s)

/-- Over a cycle the delay timer goes down by exactly 1 while above 0 and stays at 0, unless the instruction is Fx15; the
sound timer likewise, unless it is Fx18 (R95, R182). -/
def Obligations.TimersCountDown : Prop :=
  ∀ s t w, step s = .next t → s.fetchWord = some w →
    ((∀ x, decodeWord w ≠ .ldDtVx x) → t.dt.toNat = s.dt.toNat - 1) ∧
    ((∀ x, decodeWord w ≠ .ldStVx x) → t.st.toNat = s.st.toNat - 1)

/-! ### Faults (spec/60_exceptions.md) -/

/-- With the stack depth in [0, 16], an instruction faults exactly when the table of R171 says, with that cause and value, the
report of R172 and the state untouched by it (R177, R178); in every other case it completes (R173). Conditions, codes, report
and state left are the spec's own choices (D3, D4, D5, D6, D8). -/
def Obligations.InstructionsFaultExactlyByTheTable : Prop :=
  ∀ (i : Instr) (s : State), s.sp.toNat ≤ 16 →
    match faultTable i s with
    | some (cause, value) =>
      exec i s = .fault (Fault.ofCause cause { code := cause.code, fpc := s.pc - 2, opcode := s.opc, value := value } s)
    | none => ∃ t, exec i s = .next t

/-- The state a faulting cycle leaves (R178) and its report's address and opcode (R172): a fetch fault leaves everything; an
execute fault leaves `OPC` the fetched word and `PC` advanced, and nothing else, with no tick. The report (D3), and
the state left (D4; log 4), are the spec's own choices. -/
def Obligations.FaultLeavesStateAsTheSpecSays : Prop :=
  ∀ s f, step s = .fault f →
    f.info.fpc = s.pc ∧ f.info.code = f.cause.code ∧
    ((0xFFE < s.pc.toNat ∧ f.cause = .fetchOutOfBounds ∧ f.info.opcode = s.opc ∧ f.after = s) ∨
     (s.pc.toNat ≤ 0xFFE ∧ f.cause ≠ .fetchOutOfBounds ∧
       ∃ w, s.fetchWord = some w ∧ f.info.opcode = w ∧ f.after = { s with opc := w, pc := s.pc + 2 }))

/-- If the host goes on after a fault (R179): after a fetch fault the same fault is raised again; after an execute fault the
next cycle fetches the word after the faulting instruction. The spec's own choice (D4; log 4). -/
def Obligations.HostMayContinueAfterFault : Prop :=
  ∀ s f, step s = .fault f →
    (0xFFE < s.pc.toNat → continueAfter f = .fault f) ∧
    (s.pc.toNat ≤ 0xFFC → f.after.fetchWord = some (s.load (s.pc.toNat + 2) ++ s.load (s.pc.toNat + 3)))

/-- In a state of the invariant a cycle has one of the spec's two outcomes, and is never refused (R10, R96, R99). The one refusal
of the model is its own choice (log 5) and needs `SP` above 16; the invariant's clause about memory is log 11, as in
StepKeepsInvariant. -/
def Obligations.NoStepIsRefusedUnderInvariant : Prop :=
  ∀ s : State, s.Inv → (∃ t, step s = .next t) ∨ ∃ f, step s = .fault f

/-! ### Invariants -/

/-- Every cycle keeps the invariant, in the next state and in the state that a fault leaves. The depth in [0, 16] is R28's; that a
call at 16 and a return at 0 fault is the spec's own choice (decision D5, log 14). Stack entries at most 0x1000 (R26, R101) and
`PC` at most 0x10FE (R26) are derived by the spec from the fetch bound of R91 (decision D6, log 14) and from the rules of the jumps,
with Bnnn not reduced mod 4096 (decision D18, log 14). The state a fault leaves is the spec's own choice (R178, decision D4, log 4).
That memory is canonical is the model's representation (log 11, DESIGN CHOICE), no rule of the spec. -/
def Obligations.StepKeepsInvariant : Prop :=
  ∀ s : State, s.Inv → (∀ t, step s = .next t → t.Inv) ∧ ∀ f, step s = .fault f → f.after.Inv

/-- The invariant holds at reset, whatever the parameter `FONT` (log 1): with the values of R38, `SP` and the stack entries 0 and
`PC` 0x200 (decision D11, log 14). That reset memory is canonical is the model's representation (log 11, DESIGN CHOICE): nothing is
listed, because an unlisted byte reads as its reset contents. -/
def Obligations.ResetHasInvariant : Prop := State.reset.Inv ∧ ∀ font, (State.resetWith font).Inv

/-- The invariant holds at every point of every run: any `FONT` (log 1), any ROM the loader takes (R201; that it refuses a longer
one is decision D27, log 14), any keys and any random bytes between and with the cycles (R204), nothing else written by the host
(decision D25, log 12), and a host that goes on after faults (R179), from the state they leave: both the spec's own choice
(decision D4, log 4). The invariant rests on what StepKeepsInvariant names, and its clause that memory is canonical is the model's
representation (log 11, DESIGN CHOICE). -/
def Obligations.InvariantHoldsAlongEveryRun : Prop :=
  ∀ font image keys s, launchState font image keys = some s →
    ∀ moves, ((Session.mk s false).moves moves).state.Inv

/-! ### Reset and the host (spec/70_reset_and_hazards.md) -/

/-- The table of R38, for any `FONT` (R51, R200): every register, timer, stack entry, cell and key, `PC` = 0x200, and every
byte of memory. `PC`, `FB`, `K` and `OPC` rest on decisions D11 and D12. -/
def Obligations.ResetValues : Prop :=
  ∀ font, let s := State.resetWith font
    (∀ r, s.readV r = 0) ∧ s.i = 0 ∧ s.pc = 0x200 ∧ (∀ n, s.readStack n = 0) ∧ s.sp = 0 ∧ s.dt = 0 ∧ s.st = 0 ∧
    (∀ r c, cellAt s.fb r c = false) ∧ (∀ j (h : j < 16), s.k[j] = false) ∧ s.opc = 0 ∧
    (∀ j (h : j < 80), s.load (0x050 + j) = font[j]) ∧ ∀ a, a < 0x050 ∨ 0x0A0 ≤ a → s.load a = 0

/-- The loader (R65, R201): byte `j` of an image of at most 3584 bytes goes to 0x200 + `j`, every other byte and everything
else stays; a longer image is refused (D27, log 14). -/
def Obligations.LoaderPlacesImage : Prop :=
  ∀ (s : State) (image : List Byte),
    (3584 < image.length → s.loadRom image = none) ∧
    (image.length ≤ 3584 → ∃ t, s.loadRom image = some t ∧ ChangesOnly [.memory] s t ∧
      (∀ j (h : j < image.length), t.load (0x200 + j) = image[j]) ∧
      ∀ a, a < 0x200 ∨ 0x200 + image.length ≤ a → t.load a = s.load a)

/-- The random byte presented with a cycle is consumed by Cxkk only (R97, R204; the spec's own choice, decision D20): in a cycle
that fetches anything else, or nothing, it makes no difference which byte is presented. That such a cycle also equals a cycle with
no byte presented, and that `rndSeq` holds no byte to come, is in terms of the model's own random input (log 2, DESIGN CHOICE). -/
def Obligations.PresentedByteIsUsedOnlyByRnd : Prop :=
  ∀ (s : State) (b c : Byte), s.rndSeq = [] → (∀ w, s.fetchWord = some w → ∀ x kk, decodeWord w ≠ .rnd x kk) →
    cycleWith b s = cycleWith c s ∧ cycleWith b s = step s

/-! ### Memory (spec/20_memory.md) -/

/-- A write changes exactly the addressed byte (R57), and a read gives the latest write (R59), in any state; and a write inside
the 4096 bytes keeps memory in its canonical form. The canonical form, and that the first two clauses hold of addresses above
0xFFF too, which no instruction reaches, are the model's representation (log 11, DESIGN CHOICE). -/
def Obligations.StoreChangesExactlyOneByte : Prop :=
  ∀ (s : State) (a : Nat) (v : Byte),
    (s.store a v).load a = v ∧ (∀ b, b ≠ a → (s.store a v).load b = s.load b) ∧
    (a < 4096 → Memory.wf s.font s.mem = true → Memory.wf s.font (s.store a v).mem = true)

/-- A store is seen by the very next fetch (R63, which the spec marks as derived from R50 and R59): Fx55 with x at least 1 and
`I` = `PC` makes the next word {V0, V1}. -/
def Obligations.StoredBytesAreFetchedNext : Prop :=
  ∀ (x : Nibble) (s t : State), x ≠ 0 → s.i = s.pc → exec (.storeRegs x) s = .next t →
    t.fetchWord = some (s.readV 0 ++ s.readV 1)

/-! ### Control transfer (spec/41_flow.md) -/

/-- R100: a word that selects no other row does nothing in a whole cycle but load `OPC`, advance `PC` and tick the timers. -/
def Obligations.NopOnlyAdvances : Prop :=
  (∀ (word : Word) (s : State), exec (.nop word) s = .next s) ∧
  ∀ (s : State) (w : Word), s.fetchWord = some w → (∀ r ∈ opcodeTable, r.selects w = false) →
    ∃ t, step s = .next t ∧ t.opc = w ∧ t.pc = s.pc + 2 ∧ t.dt.toNat = s.dt.toNat - 1 ∧ t.st.toNat = s.st.toNat - 1 ∧
      t.k = s.k ∧ t.font = s.font ∧
      ∀ p, p ∉ [Part.pc, Part.delay, Part.sound] → SamePart s t p

/-- R102: 1nnn sets `PC` to the zero-extended `nnn` and changes nothing else. Over the whole cycle that fetches it the timers tick
beside it. A jump to its own address leaves the next cycle to fetch the same word there, so the same holds of that cycle and of
every later one. A jump to 0xFFF faults at the next fetch, by the bound of R91, which is the spec's own choice (decision D6,
log 14). -/
def Obligations.JpSetsPc : Prop :=
  ∀ (nnn : Addr) (s : State), decodeWord (0x1#4 ++ nnn) = .jp nnn ∧
    (∃ t, exec (.jp nnn) s = .next t ∧ t.pc.toNat = nnn.toNat ∧ ChangesOnly [.pc] s t) ∧
    (s.fetchWord = some (0x1#4 ++ nnn) → ∃ t, step s = .next t ∧ t.pc.toNat = nnn.toNat ∧
      t.dt.toNat = s.dt.toNat - 1 ∧ t.st.toNat = s.st.toNat - 1 ∧
      (s.pc.toNat = nnn.toNat → t.pc = s.pc ∧ t.fetchWord = s.fetchWord) ∧
      (nnn = 0xFFF → ∃ f, step t = .fault f ∧ f.cause = .fetchOutOfBounds))

/-- R103: below depth 16, 2nnn pushes the advanced `PC` and jumps; at depth 16 it faults and nothing is pushed. The fault is the
spec's own choice (D5), and so are its code, its report and the state it leaves (D3, D4; log 4, log 14). -/
def Obligations.CallPushesAdvancedPc : Prop :=
  ∀ (nnn : Addr) (s : State), decodeWord (0x2#4 ++ nnn) = .call nnn ∧
    (∀ h : s.sp.toNat < 16, ∃ t, exec (.call nnn) s = .next t ∧
      t.readStack ⟨s.sp.toNat, h⟩ = s.pc ∧ (∀ n : Fin 16, n.val ≠ s.sp.toNat → t.readStack n = s.readStack n) ∧
      t.sp.toNat = s.sp.toNat + 1 ∧ t.pc.toNat = nnn.toNat ∧ ChangesOnly [.pc, .stack] s t) ∧
    (s.sp.toNat = 16 →
      exec (.call nnn) s = .fault (.stackOverflow { code := 4, fpc := s.pc - 2, opcode := s.opc, value := 16 } s))

/-- R101: at a depth of 1 to 16, 00EE decrements `SP` and jumps to the entry there, which stays; at depth 0 it faults. The fault
is the spec's own choice (D5), and so are its code, its report and the state it leaves (D3, D4; log 4, log 14). -/
def Obligations.RetPopsReturnAddress : Prop :=
  ∀ s : State,
    (∀ n : Fin 16, s.sp.toNat = n.val + 1 → ∃ t, exec .ret s = .next t ∧ t.sp.toNat = n.val ∧ t.pc = s.readStack n ∧
      (∀ m, t.readStack m = s.readStack m) ∧ ChangesOnly [.pc, .stack] s t) ∧
    (s.sp.toNat = 0 →
      exec .ret s = .fault (.stackUnderflow { code := 5, fpc := s.pc - 2, opcode := s.opc, value := 0 } s))

/-- A return undoes a call: it comes back to the call's advanced `PC` at the depth of before (R101, R103). -/
def Obligations.RetUndoesCall : Prop :=
  ∀ (nnn : Addr) (s t : State), exec (.call nnn) s = .next t →
    ∃ u, exec .ret t = .next u ∧ u.pc = s.pc ∧ u.sp = s.sp ∧ ChangesOnly [.pc, .stack] s u

/-- R104 and R105: 3xkk skips when Vx = kk, 4xkk when it differs; a skip adds 2 to the advanced `PC`, and nothing else
changes. -/
def Obligations.SkipsOnImmediate : Prop :=
  ∀ (x : Nibble) (kk : Byte) (s : State),
    decodeWord (0x3#4 ++ x ++ kk) = .seImm x kk ∧ decodeWord (0x4#4 ++ x ++ kk) = .sneImm x kk ∧
    (∃ t, exec (.seImm x kk) s = .next t ∧ t.pc = (if s.readV x = kk then s.pc + 2 else s.pc) ∧ ChangesOnly [.pc] s t) ∧
    ∃ t, exec (.sneImm x kk) s = .next t ∧ t.pc = (if s.readV x = kk then s.pc else s.pc + 2) ∧ ChangesOnly [.pc] s t

/-- R106 and R107: 5xy0 skips when Vx = Vy (always when x = y), 9xy0 when they differ (never when x = y). The low nibble of
the word is not examined (decision D2). -/
def Obligations.SkipsOnRegisters : Prop :=
  ∀ (x y q : Nibble) (s : State),
    decodeWord (0x5#4 ++ x ++ y ++ q) = .seReg x y ∧ decodeWord (0x9#4 ++ x ++ y ++ q) = .sneReg x y ∧
    (∃ t, exec (.seReg x y) s = .next t ∧ t.pc = (if s.readV x = s.readV y then s.pc + 2 else s.pc) ∧
      (x = y → t.pc = s.pc + 2) ∧ ChangesOnly [.pc] s t) ∧
    ∃ t, exec (.sneReg x y) s = .next t ∧ t.pc = (if s.readV x = s.readV y then s.pc else s.pc + 2) ∧
      (x = y → t.pc = s.pc) ∧ ChangesOnly [.pc] s t

/-- R109: Bnnn jumps to nnn + V0 as a natural number: it never wraps and is not reduced mod 4096 (decision D18). -/
def Obligations.JpV0AddsV0 : Prop :=
  ∀ (nnn : Addr) (s : State), decodeWord (0xB#4 ++ nnn) = .jpV0 nnn ∧
    ∃ t, exec (.jpV0 nnn) s = .next t ∧ t.pc.toNat = nnn.toNat + (s.readV 0).toNat ∧ ChangesOnly [.pc] s t

/-! ### Register load and arithmetic (spec/42_alu.md) -/

/-- R121 and R122: 6xkk writes kk, 7xkk adds it mod 256; no other register changes, VF neither unless it is Vx. -/
def Obligations.LoadAndAddImmediate : Prop :=
  ∀ (x : Nibble) (kk : Byte) (s : State),
    decodeWord (0x6#4 ++ x ++ kk) = .ldImm x kk ∧ decodeWord (0x7#4 ++ x ++ kk) = .addImm x kk ∧
    (∃ t, exec (.ldImm x kk) s = .next t ∧ t.readV x = kk ∧ ChangesOnlyRegs (· = x) s t) ∧
    ∃ t, exec (.addImm x kk) s = .next t ∧ (t.readV x).toNat = ((s.readV x).toNat + kk.toNat) % 256 ∧
      ChangesOnlyRegs (· = x) s t

/-- R123: 8xy0 copies Vy into Vx. -/
def Obligations.CopyRegister : Prop :=
  ∀ (x y : Nibble) (s : State), decodeWord (0x8#4 ++ x ++ y ++ 0x0#4) = .ldReg x y ∧
    ∃ t, exec (.ldReg x y) s = .next t ∧ t.readV x = s.readV y ∧ ChangesOnlyRegs (· = x) s t

/-- R124 to R126: 8xy1, 8xy2, 8xy3 combine Vx and Vy bit by bit into Vx; VF is not touched as a flag (decision D16). -/
def Obligations.LogicOnRegisters : Prop :=
  ∀ (x y : Nibble) (s : State),
    decodeWord (0x8#4 ++ x ++ y ++ 0x1#4) = .orReg x y ∧ decodeWord (0x8#4 ++ x ++ y ++ 0x2#4) = .andReg x y ∧
    decodeWord (0x8#4 ++ x ++ y ++ 0x3#4) = .xorReg x y ∧
    (∃ t, exec (.orReg x y) s = .next t ∧ ChangesOnlyRegs (· = x) s t ∧
      ∀ j, (t.readV x).getLsbD j = ((s.readV x).getLsbD j || (s.readV y).getLsbD j)) ∧
    (∃ t, exec (.andReg x y) s = .next t ∧ ChangesOnlyRegs (· = x) s t ∧
      ∀ j, (t.readV x).getLsbD j = ((s.readV x).getLsbD j && (s.readV y).getLsbD j)) ∧
    ∃ t, exec (.xorReg x y) s = .next t ∧ ChangesOnlyRegs (· = x) s t ∧
      ∀ j, (t.readV x).getLsbD j = ((s.readV x).getLsbD j ^^ (s.readV y).getLsbD j)

/-- R127: 8xy4 writes the sum mod 256 into Vx and then the carry into VF, in every case; with x = F the carry is what VF holds
(R120, decision D10). -/
def Obligations.AddSetsCarry : Prop :=
  ∀ (x y : Nibble) (s : State), decodeWord (0x8#4 ++ x ++ y ++ 0x4#4) = .addReg x y ∧
    ∃ t, exec (.addReg x y) s = .next t ∧
      t.readV 0xF = (if 255 < (s.readV x).toNat + (s.readV y).toNat then 1 else 0) ∧
      (x ≠ 0xF → (t.readV x).toNat = ((s.readV x).toNat + (s.readV y).toNat) % 256) ∧
      ChangesOnlyRegs (fun r => r = x ∨ r = 0xF) s t

/-- R128 and R130: 8xy5 writes Vx - Vy mod 256 and then VF = 1 iff Vx > Vy; 8xy7 writes Vy - Vx mod 256 and then VF = 1 iff
Vy > Vx; both strictly, so equal operands give 0 and VF = 0 (C3). With x = F the flag is what VF holds (R120, D10). -/
def Obligations.SubtractSetsStrictFlag : Prop :=
  ∀ (x y : Nibble) (s : State),
    decodeWord (0x8#4 ++ x ++ y ++ 0x5#4) = .subReg x y ∧ decodeWord (0x8#4 ++ x ++ y ++ 0x7#4) = .subn x y ∧
    (∃ t, exec (.subReg x y) s = .next t ∧
      t.readV 0xF = (if (s.readV y).toNat < (s.readV x).toNat then 1 else 0) ∧
      (x ≠ 0xF → (t.readV x).toNat = (256 + (s.readV x).toNat - (s.readV y).toNat) % 256) ∧
      ChangesOnlyRegs (fun r => r = x ∨ r = 0xF) s t) ∧
    ∃ t, exec (.subn x y) s = .next t ∧
      t.readV 0xF = (if (s.readV x).toNat < (s.readV y).toNat then 1 else 0) ∧
      (x ≠ 0xF → (t.readV x).toNat = (256 + (s.readV y).toNat - (s.readV x).toNat) % 256) ∧
      ChangesOnlyRegs (fun r => r = x ∨ r = 0xF) s t

/-- R129 and R131: 8xy6 halves Vx, VF = its old bit 0; 8xyE doubles it mod 256, VF = its old bit 7; the y field is not used
(decision D16); with x = F the flag is what VF holds (R120, D10). -/
def Obligations.ShiftsSetShiftedOutBit : Prop :=
  ∀ (x y : Nibble) (s : State),
    decodeWord (0x8#4 ++ x ++ y ++ 0x6#4) = .shr x ∧ decodeWord (0x8#4 ++ x ++ y ++ 0xE#4) = .shl x ∧
    (∃ t, exec (.shr x) s = .next t ∧ (t.readV 0xF).toNat = (s.readV x).toNat % 2 ∧
      (x ≠ 0xF → (t.readV x).toNat = (s.readV x).toNat / 2) ∧ ChangesOnlyRegs (fun r => r = x ∨ r = 0xF) s t) ∧
    ∃ t, exec (.shl x) s = .next t ∧ (t.readV 0xF).toNat = (s.readV x).toNat / 128 ∧
      (x ≠ 0xF → (t.readV x).toNat = 2 * (s.readV x).toNat % 256) ∧ ChangesOnlyRegs (fun r => r = x ∨ r = 0xF) s t

/-- R22 and R36: an instruction that completes leaves VF 0 or 1 if it is one of the six that set a flag, and otherwise leaves
VF as it was unless it names VF as its destination (as x of 6xkk, 7xkk, 8xy0 to 8xy3, Cxkk, Fx07, Fx0A, or in the block of
FF65). The flag-last order (D10) and VF after the logic operations (D16) are the spec's own choices. -/
def Obligations.VfChangesOnlyAsFlagOrDestination : Prop :=
  ∀ (i : Instr) (s t : State), exec i s = .next t →
    match i with
    | .addReg _ _ | .subReg _ _ | .shr _ | .subn _ _ | .shl _ | .drw _ _ _ => t.readV 0xF = 0 ∨ t.readV 0xF = 1
    | .ldImm x _ | .addImm x _ | .ldReg x _ | .orReg x _ | .andReg x _ | .xorReg x _ | .rnd x _ | .ldVxDt x | .ldVxK x
    | .loadRegs x => x ≠ 0xF → t.readV 0xF = s.readV 0xF
    | _ => t.readV 0xF = s.readV 0xF

/-! ### Index register and memory (spec/43_index_mem.md) -/

/-- R141: Annn sets `I` to the zero-extended nnn. -/
def Obligations.LoadIndex : Prop :=
  ∀ (nnn : Addr) (s : State), decodeWord (0xA#4 ++ nnn) = .ldI nnn ∧
    ∃ t, exec (.ldI nnn) s = .next t ∧ t.i.toNat = nnn.toNat ∧ ChangesOnly [.index] s t

/-- R142 and R143: Fx1E adds Vx to `I` mod 65536 with no flag; Fx29 sets `I` to 0x050 + 5 * Vx with all 8 bits of Vx and no
fault (decision D17). -/
def Obligations.IndexArithmetic : Prop :=
  ∀ (x : Nibble) (s : State),
    decodeWord (0xF#4 ++ x ++ 0x1E#8) = .addI x ∧ decodeWord (0xF#4 ++ x ++ 0x29#8) = .ldF x ∧
    (∃ t, exec (.addI x) s = .next t ∧ t.i.toNat = (s.i.toNat + (s.readV x).toNat) % 65536 ∧ ChangesOnly [.index] s t) ∧
    ∃ t, exec (.ldF x) s = .next t ∧ t.i.toNat = 0x050 + 5 * (s.readV x).toNat ∧ ChangesOnly [.index] s t

/-- R144: with `I` at most 0xFFD, Fx33 stores the hundreds, tens and units of Vx at `I`, `I`+1, `I`+2 and changes no other byte
and nothing else; with `I` above it faults and nothing is written. The bound, the report and the state left are the spec's own
choices (D3, D4, D6). -/
def Obligations.BcdStoresDigits : Prop :=
  ∀ (x : Nibble) (s : State), decodeWord (0xF#4 ++ x ++ 0x33#8) = .ldB x ∧
    (s.i.toNat ≤ 0xFFD → ∃ t, exec (.ldB x) s = .next t ∧ ChangesOnly [.memory] s t ∧
      (t.load s.base).toNat = (s.readV x).toNat / 100 ∧
      (t.load (s.base + 1)).toNat = (s.readV x).toNat / 10 % 10 ∧
      (t.load (s.base + 2)).toNat = (s.readV x).toNat % 10 ∧
      ∀ a, a < s.base ∨ s.base + 3 ≤ a → t.load a = s.load a) ∧
    (0xFFD < s.i.toNat → exec (.ldB x) s =
      .fault (.memWriteOutOfBounds { code := 3, fpc := s.pc - 2, opcode := s.opc, value := s.i } s))

/-- R145: with `I` + x at most 0xFFF, Fx55 stores V0 to Vx at `I` to `I` + x and changes no other byte and nothing else, `I`
neither (decision D16; log 7); otherwise it faults and no byte is written (decision D6), with the report and the state left of decisions
D3 and D4 (log 4). -/
def Obligations.StoreRegistersStoresBlock : Prop :=
  ∀ (x : Nibble) (s : State), decodeWord (0xF#4 ++ x ++ 0x55#8) = .storeRegs x ∧
    (s.i.toNat + x.toNat ≤ 0xFFF → ∃ t, exec (.storeRegs x) s = .next t ∧ ChangesOnly [.memory] s t ∧
      (∀ k : Nibble, k.toNat ≤ x.toNat → t.load (s.base + k.toNat) = s.readV k) ∧
      ∀ a, a < s.base ∨ s.base + x.toNat < a → t.load a = s.load a) ∧
    (0xFFF < s.i.toNat + x.toNat → exec (.storeRegs x) s =
      .fault (.memWriteOutOfBounds { code := 3, fpc := s.pc - 2, opcode := s.opc, value := s.i } s))

/-- R146: with `I` + x at most 0xFFF, Fx65 loads V0 to Vx from `I` to `I` + x; registers above x, memory and `I` are unchanged
(decision D16; log 7); otherwise it faults and no register is written (decision D6), with the report and the state left of
decisions D3 and D4 (log 4). -/
def Obligations.LoadRegistersLoadsBlock : Prop :=
  ∀ (x : Nibble) (s : State), decodeWord (0xF#4 ++ x ++ 0x65#8) = .loadRegs x ∧
    (s.i.toNat + x.toNat ≤ 0xFFF → ∃ t, exec (.loadRegs x) s = .next t ∧
      (∀ k : Nibble, k.toNat ≤ x.toNat → t.readV k = s.load (s.base + k.toNat)) ∧
      ChangesOnlyRegs (fun r => r.toNat ≤ x.toNat) s t) ∧
    (0xFFF < s.i.toNat + x.toNat → exec (.loadRegs x) s =
      .fault (.memReadOutOfBounds { code := 2, fpc := s.pc - 2, opcode := s.opc, value := s.i } s))

/-- Registers stored and loaded back through the same `I` are as they were: Fx55 then Fx65 with the same x ends with every
register, and `I`, as before (R145, R146, R212). That the load finds the same `I`, and that `I` ends as it was, rests on the
spec's own choice that neither instruction moves `I` (decision D16; log 7). -/
def Obligations.LoadAfterStoreRestoresRegisters : Prop :=
  ∀ (x : Nibble) (s t : State) (w : Vector Byte 16), exec (.storeRegs x) s = .next t →
    (∀ k : Nibble, x.toNat < k.toNat → w[k.toNat]'k.isLt = s.readV k) →
    ∃ u, exec (.loadRegs x) { t with v := w } = .next u ∧ (∀ k, u.readV k = s.readV k) ∧ u.i = s.i

/-! ### Display (spec/44_display.md) -/

/-- R151: every word 0x0pq0 clears every cell and changes nothing else. That bits 11:4 are not examined is the spec's own choice
(D2). -/
def Obligations.ClearDisplay : Prop :=
  ∀ (p q : Nibble) (s : State), decodeWord (0x0#4 ++ p ++ q ++ 0x0#4) = .cls ∧
    ∃ t, exec .cls s = .next t ∧ (∀ r c, cellAt t.fb r c = false) ∧ ChangesOnly [.display] s t

/-- R152: when its n bytes lie in memory (none do not), Dxyn flips exactly the cells of the grid where the sprite at (Vx mod 64,
Vy mod 32) has a set bit, clipped and not wrapped, writes VF = 1 iff one of them was on, and changes nothing else; otherwise it
faults and neither the display nor VF changes. Bit order (D14, log 9), clipping (D7), bounds (D6), n = 0 (D26), the report
and the state a fault leaves (D3, D4; log 4) are the spec's own choices. -/
def Obligations.DrawFlipsSpriteCells : Prop :=
  ∀ (x y n : Nibble) (s : State), decodeWord (0xD#4 ++ x ++ y ++ n) = .drw x y n ∧
    (n = 0 ∨ s.i.toNat + n.toNat ≤ 0x1000 →
      ∃ t, exec (.drw x y n) s = .next t ∧
        (∀ r c, cellAt t.fb r c = (cellAt s.fb r c ^^ decide (r < 32 ∧ c < 64 ∧
          spriteBit (s.loadBytes s.base n.toNat) ((s.readV y).toNat % 32) ((s.readV x).toNat % 64) r c = true))) ∧
        ((∃ r c, cellAt s.fb r c = true ∧
          spriteBit (s.loadBytes s.base n.toNat) ((s.readV y).toNat % 32) ((s.readV x).toNat % 64) r c = true) →
            t.readV 0xF = 1) ∧
        ((∀ r c, cellAt s.fb r c = true →
          spriteBit (s.loadBytes s.base n.toNat) ((s.readV y).toNat % 32) ((s.readV x).toNat % 64) r c = false) →
            t.readV 0xF = 0) ∧
        ChangesOnly [.display, .regs] s t ∧ ∀ r, r ≠ 0xF → t.readV r = s.readV r) ∧
    (n ≠ 0 → 0x1000 < s.i.toNat + n.toNat → exec (.drw x y n) s =
      .fault (.memReadOutOfBounds { code := 2, fpc := s.pc - 2, opcode := s.opc, value := s.i } s))

/-- R153 (a) and (b), which the spec marks as derived from R152: a sprite drawn twice at the same place leaves the display as it was, and onto a clear display the second
draw reports a collision exactly when the first lit a cell, and the first reports none. A draw writes VF, so the same place
means: with the registers put back (any x and y), or with no coordinate in VF. -/
def Obligations.DrawTwiceRestoresDisplay : Prop :=
  ∀ (x y n : Nibble) (s t : State), exec (.drw x y n) s = .next t →
    ∀ t', (t' = { t with v := s.v } ∨ (x ≠ 0xF ∧ y ≠ 0xF ∧ t' = t)) →
      ∃ u, exec (.drw x y n) t' = .next u ∧ u.fb = s.fb ∧
        ((∀ r c, cellAt s.fb r c = false) → t.readV 0xF = 0 ∧ (u.readV 0xF = 1 ↔ ∃ r c, cellAt t.fb r c = true))

/-! ### Timers, random byte, keys (spec/45_timer_key_rnd.md) -/

/-- R161: Fx07 reads `DT` into Vx and changes nothing else; over the whole cycle that fetches it, the value read is the one
before the tick, and `DT` ends one less if it was above 0. -/
def Obligations.ReadDelayTimer : Prop :=
  ∀ (x : Nibble) (s : State), decodeWord (0xF#4 ++ x ++ 0x07#8) = .ldVxDt x ∧
    (∃ t, exec (.ldVxDt x) s = .next t ∧ t.readV x = s.dt ∧ ChangesOnlyRegs (· = x) s t) ∧
    (s.fetchWord = some (0xF#4 ++ x ++ 0x07#8) →
      ∃ t, step s = .next t ∧ t.readV x = s.dt ∧ t.dt.toNat = s.dt.toNat - 1)

/-- R162 and R163: Fx15 writes `DT` and Fx18 writes `ST`, and neither changes anything else; over the whole cycle the value set
has been ticked once, and the other timer ticks too (R95; the spec marks the tick of the new value as derived). -/
def Obligations.SetTimers : Prop :=
  (∀ (x : Nibble) (s : State),
    decodeWord (0xF#4 ++ x ++ 0x15#8) = .ldDtVx x ∧ decodeWord (0xF#4 ++ x ++ 0x18#8) = .ldStVx x ∧
    (∃ t, exec (.ldDtVx x) s = .next t ∧ t.dt = s.readV x ∧ ChangesOnly [.delay] s t) ∧
    ∃ t, exec (.ldStVx x) s = .next t ∧ t.st = s.readV x ∧ ChangesOnly [.sound] s t) ∧
  ∀ (x : Nibble) (s : State),
    (s.fetchWord = some (0xF#4 ++ x ++ 0x15#8) →
      ∃ t, step s = .next t ∧ t.dt.toNat = (s.readV x).toNat - 1 ∧ t.st.toNat = s.st.toNat - 1) ∧
    (s.fetchWord = some (0xF#4 ++ x ++ 0x18#8) →
      ∃ t, step s = .next t ∧ t.st.toNat = (s.readV x).toNat - 1 ∧ t.dt.toNat = s.dt.toNat - 1)

/-- R164: Cxkk writes the random byte and kk into Vx, so the result has no bit outside kk; the byte is the next of the host's
sequence, or a free value where the host names none (decision D20; log 2), and only the random input moves on. -/
def Obligations.RandomByteIsMasked : Prop :=
  ∀ (x : Nibble) (kk : Byte) (s : State), decodeWord (0xC#4 ++ x ++ kk) = .rnd x kk ∧
    ∃ t, exec (.rnd x kk) s = .next t ∧ t.readV x &&& ~~~kk = 0 ∧
      (∀ b rest, s.rndSeq = b :: rest → t.readV x = b &&& kk ∧ t.rndSeq = rest ∧ t.draws = s.draws) ∧
      (s.rndSeq = [] → t.readV x = Config.randomByte s.draws &&& kk ∧ t.rndSeq = [] ∧ t.draws = s.draws + 1) ∧
      (∀ r, r ≠ x → t.readV r = s.readV r) ∧ ChangesOnly [.regs, .random] s t

/-- R165 and R166: with Vx at most 15, Ex9E skips when key Vx is pressed, ExA1 when it is not, and nothing else changes; with Vx
above 15 both fault and the index is not masked. The fault (D8), its code, its report and the state it leaves (D3, D4; log 4,
log 14), and that bits 7:4 of the word are not examined (D2; log 6), are the spec's own choices. -/
def Obligations.KeySkips : Prop :=
  ∀ (x q : Nibble) (s : State),
    decodeWord (0xE#4 ++ x ++ q ++ 0xE#4) = .skp x ∧ decodeWord (0xE#4 ++ x ++ q ++ 0x1#4) = .sknp x ∧
    (∀ h : (s.readV x).toNat < 16,
      (∃ t, exec (.skp x) s = .next t ∧ t.pc = (if s.k[(s.readV x).toNat] = true then s.pc + 2 else s.pc) ∧
        ChangesOnly [.pc] s t) ∧
      ∃ t, exec (.sknp x) s = .next t ∧ t.pc = (if s.k[(s.readV x).toNat] = true then s.pc else s.pc + 2) ∧
        ChangesOnly [.pc] s t) ∧
    (15 < (s.readV x).toNat → ∃ info : FaultInfo, info.code = 6 ∧ info.fpc = s.pc - 2 ∧ info.opcode = s.opc ∧
      info.value.toNat = (s.readV x).toNat ∧ exec (.skp x) s = .fault (.keyIndexOutOfRange info s) ∧
      exec (.sknp x) s = .fault (.keyIndexOutOfRange info s))

/-- R167: Fx0A with a key pressed writes the least pressed index into Vx and goes on; with none pressed it takes `PC` back by 2.
The choice of the least is the spec's own (D9, log 8). -/
def Obligations.KeyWaitPolls : Prop :=
  ∀ (x : Nibble) (s : State), decodeWord (0xF#4 ++ x ++ 0x0A#8) = .ldVxK x ∧
    (∀ j (h : j < 16), s.k[j] = true → (∀ l (hl : l < j), s.k[l] = false) →
      ∃ t, exec (.ldVxK x) s = .next t ∧ (t.readV x).toNat = j ∧ ChangesOnlyRegs (· = x) s t) ∧
    ((∀ j (h : j < 16), s.k[j] = false) →
      ∃ t, exec (.ldVxK x) s = .next t ∧ t.pc = s.pc - 2 ∧ ChangesOnly [.pc] s t)

/-- R167 (a): a whole waiting cycle: with no key pressed, the cycle completes, `PC` is the instruction's own address again, the
timers tick, and nothing else but `OPC` changes; so the next cycle fetches the same word. -/
def Obligations.KeyWaitStaysInPlace : Prop :=
  ∀ (x : Nibble) (s : State), s.fetchWord = some (0xF#4 ++ x ++ 0x0A#8) → (∀ j (h : j < 16), s.k[j] = false) →
    ∃ t, step s = .next t ∧ t.fetchWord = s.fetchWord ∧ t.k = s.k ∧ t.dt.toNat = s.dt.toNat - 1 ∧
      t.st.toNat = s.st.toNat - 1 ∧ t.opc = 0xF#4 ++ x ++ 0x0A#8 ∧
      ∀ p, p ∉ [Part.delay, Part.sound] → SamePart s t p

/-! ### Whole-machine rules -/

/-- R98, the writers' column of R37, and the effects of R100 to R167: no instruction writes the keys, the latched opcode (fetch
does, outside the handler) or the parameter FONT (R35; log 1), and each other piece of state is changed by no instruction but
those named for it. For V0 to VF that is said register by register: the destination, VF by the six instructions that set a flag,
and V0 to Vx by Fx65; that the logic operations do not write VF is decision D16 (log 7). The random input still to come is the
model's own (log 2). -/
def Obligations.EachPartHasItsWriters : Prop :=
  ∀ (i : Instr) (s t : State), exec i s = .next t →
    t.k = s.k ∧ t.opc = s.opc ∧ t.font = s.font ∧
    (∀ r, writesRegister i r = false → t.readV r = s.readV r) ∧
    (writesPc i = false → SamePart s t .pc) ∧
    ((∀ x, i ≠ .ldB x ∧ i ≠ .storeRegs x) → SamePart s t .memory) ∧
    (i ≠ .ret → (∀ nnn, i ≠ .call nnn) → SamePart s t .stack) ∧
    ((∀ x, i ≠ .ldDtVx x) → SamePart s t .delay) ∧
    ((∀ x, i ≠ .ldStVx x) → SamePart s t .sound) ∧
    (i ≠ .cls → (∀ x y n, i ≠ .drw x y n) → SamePart s t .display) ∧
    ((∀ nnn, i ≠ .ldI nnn) → (∀ x, i ≠ .addI x ∧ i ≠ .ldF x) → SamePart s t .index) ∧
    ((∀ x kk, i ≠ .rnd x kk) → SamePart s t .random)

/-- R26: every instruction but a jump, a call, a return and Fx0A leaves `PC` as advanced, or, if it is a skip, 2 further. -/
def Obligations.PcMovesOnlyByControlTransfer : Prop :=
  ∀ (i : Instr) (s t : State), exec i s = .next t →
    match i with
    | .jp _ | .call _ | .ret | .jpV0 _ => True
    | .ldVxK _ => t.pc = s.pc ∨ t.pc = s.pc - 2
    | .seImm _ _ | .sneImm _ _ | .seReg _ _ | .sneReg _ _ | .skp _ | .sknp _ => t.pc = s.pc ∨ t.pc = s.pc + 2
    | _ => t.pc = s.pc

/-- R33: the latched opcode is hidden. Two states that differ in `OPC` only give the same instruction the same outcome, but for
`OPC` itself and the opcode of a fault's report. -/
def Obligations.OpcodeLatchIsHidden : Prop :=
  ∀ (i : Instr) (s : State) (w : Word),
    (∀ t, exec i s = .next t → exec i { s with opc := w } = .next { t with opc := w }) ∧
    (∀ f, exec i s = .fault f → exec i { s with opc := w } =
      .fault (Fault.ofCause f.cause { f.info with opcode := w } { f.after with opc := w }))

/-- R30: no instruction reads the sound timer: changing it changes nothing in the outcome but itself. -/
def Obligations.SoundTimerIsNeverRead : Prop :=
  ∀ (i : Instr) (s : State) (b : Byte),
    viewThrough (fun t => { t with st := 0 }) (exec i { s with st := b }) = viewThrough (fun t => { t with st := 0 }) (exec i s)

/-- R31 and R98: only Dxyn reads the display: for every other instruction, changing the display changes nothing in the outcome
but the display. -/
def Obligations.DisplayIsReadOnlyByDraw : Prop :=
  ∀ (i : Instr) (s : State) (f : Frame), (∀ x y n, i ≠ .drw x y n) →
    viewThrough (fun t => { t with fb := blankFrame }) (exec i { s with fb := f }) =
      viewThrough (fun t => { t with fb := blankFrame }) (exec i s)

/-- R32: only Ex9E, ExA1 and Fx0A read the keys: for every other instruction, changing the keys changes nothing in the outcome but
the keys. -/
def Obligations.KeysAreReadOnlyByKeyInstructions : Prop :=
  ∀ (i : Instr) (s : State) (k : Vector Bool 16), (∀ x, i ≠ .skp x ∧ i ≠ .sknp x ∧ i ≠ .ldVxK x) →
    viewThrough (fun t => { t with k := s.k }) (exec i { s with k := k }) = exec i s
end

