-- ==== Sys2Proof/Laws/Decode.lean ====
section
/-! SUPPORT. The fields of a word written field by field, and every word as its fields: what a proof about the decoder or
the encoder needs of bit positions. -/

namespace Sys2Proof

/-- A slice that lies in the high part of a concatenation. -/
theorem extract_high {v w : Nat} (a : BitVec v) (b : BitVec w) (start len : Nat) (h : w ≤ start) :
    (a ++ b).extractLsb' start len = a.extractLsb' (start - w) len := by
  rw [BitVec.extractLsb'_append_eq_ite, dif_neg (by omega)]

/-- A slice that lies in the low part of a concatenation. -/
theorem extract_low {v w : Nat} (a : BitVec v) (b : BitVec w) (start len : Nat) (h : start < w) (h' : start + len ≤ w) :
    (a ++ b).extractLsb' start len = b.extractLsb' start len := by
  rw [BitVec.extractLsb'_append_eq_ite, dif_pos h, dif_pos h']

/-! ### Words of four nibbles (formats XY, XYS, XYN) -/

@[simp] theorem opField_nibbles (a x y n : Nibble) : opField (a ++ x ++ y ++ n) = a := by
  rw [opField, extract_high _ n _ _ (by omega), extract_high _ y _ _ (by omega), extract_high _ x _ _ (by omega)]
  exact BitVec.extractLsb'_eq_self

@[simp] theorem xField_nibbles (a x y n : Nibble) : xField (a ++ x ++ y ++ n) = x := by
  rw [xField, extract_high _ n _ _ (by omega), extract_high _ y _ _ (by omega), extract_low _ _ _ _ (by omega) (by omega)]
  exact BitVec.extractLsb'_eq_self

@[simp] theorem yField_nibbles (a x y n : Nibble) : yField (a ++ x ++ y ++ n) = y := by
  rw [yField, extract_high _ n _ _ (by omega), extract_low _ _ _ _ (by omega) (by omega)]
  exact BitVec.extractLsb'_eq_self

@[simp] theorem nField_nibbles (a x y n : Nibble) : nField (a ++ x ++ y ++ n) = n := by
  rw [nField, extract_low _ _ _ _ (by omega) (by omega)]
  exact BitVec.extractLsb'_eq_self

@[simp] theorem kkField_nibbles (a x y n : Nibble) : kkField (a ++ x ++ y ++ n) = y ++ n := by
  rw [kkField, show (a ++ x ++ y ++ n : Word) = ((a ++ x : Byte) ++ (y ++ n : Byte) : Word) from by
    rw [BitVec.append_assoc (x₁ := (a ++ x : Byte)) (x₂ := y) (x₃ := n)]; rfl]
  rw [extract_low _ _ _ _ (by omega) (by omega)]
  exact BitVec.extractLsb'_eq_self

/-! ### Words of two nibbles and a byte (formats XKK, XS8) -/

@[simp] theorem opField_byte (a x : Nibble) (kk : Byte) : opField (a ++ x ++ kk) = a := by
  rw [opField, extract_high _ kk _ _ (by omega), extract_high _ x _ _ (by omega)]
  exact BitVec.extractLsb'_eq_self

@[simp] theorem xField_byte (a x : Nibble) (kk : Byte) : xField (a ++ x ++ kk) = x := by
  rw [xField, extract_high _ kk _ _ (by omega), extract_low _ _ _ _ (by omega) (by omega)]
  exact BitVec.extractLsb'_eq_self

@[simp] theorem kkField_byte (a x : Nibble) (kk : Byte) : kkField (a ++ x ++ kk) = kk := by
  rw [kkField, extract_low _ _ _ _ (by omega) (by omega)]
  exact BitVec.extractLsb'_eq_self

/-- The low nibble of a word is the low nibble of its low byte. -/
@[simp] theorem nField_byte (a x : Nibble) (kk : Byte) : nField (a ++ x ++ kk) = kk.extractLsb' 0 4 := by
  rw [nField, extract_low _ _ _ _ (by omega) (by omega)]

/-- Bits 7:4 of a word are the high nibble of its low byte. -/
@[simp] theorem yField_byte (a x : Nibble) (kk : Byte) : yField (a ++ x ++ kk) = kk.extractLsb' 4 4 := by
  rw [yField, extract_low _ _ _ _ (by omega) (by omega)]

/-! ### Words of a nibble and an address (format NNN) -/

@[simp] theorem opField_addr (a : Nibble) (nnn : Addr) : opField (a ++ nnn) = a := by
  rw [opField, extract_high _ nnn _ _ (by omega)]
  exact BitVec.extractLsb'_eq_self

@[simp] theorem nnnField_addr (a : Nibble) (nnn : Addr) : nnnField (a ++ nnn) = nnn := by
  rw [nnnField, extract_low _ _ _ _ (by omega) (by omega)]
  exact BitVec.extractLsb'_eq_self

/-! ### Every word is its fields -/

/-- Every word is its four nibbles (R72). -/
theorem word_eq_nibbles (w : Word) : w = opField w ++ xField w ++ yField w ++ nField w := by
  simp only [opField, xField, yField, nField]
  apply BitVec.eq_of_getLsbD_eq
  intro i hi
  rw [BitVec.getLsbD_append]
  split
  · rw [BitVec.getLsbD_extractLsb']; simp [*]
  · rw [BitVec.getLsbD_append]
    split
    · rw [BitVec.getLsbD_extractLsb']
      simp only [*, decide_true, Bool.true_and]; congr 1; omega
    · rw [BitVec.getLsbD_append]
      split
      · rw [BitVec.getLsbD_extractLsb']; simp only [*, decide_true, Bool.true_and]; congr 1; omega
      · rw [BitVec.getLsbD_extractLsb']
        simp only [show i - 4 - 4 - 4 < 4 by omega, decide_true, Bool.true_and]; congr 1; omega

/-- The two bytes of a word put together again are the word (R52). -/
@[simp] theorem wordOfBytes_bytes (w : Word) : wordOfBytes (highByte w) (lowByte w) = w := by
  simp only [wordOfBytes, highByte, lowByte]
  apply BitVec.eq_of_getLsbD_eq
  intro i hi
  rw [BitVec.getLsbD_append]
  split
  · rw [BitVec.getLsbD_extractLsb']; simp [*]
  · rw [BitVec.getLsbD_extractLsb']
    simp only [show i - 8 < 8 by omega, decide_true, Bool.true_and]; congr 1; omega

@[simp] theorem highByte_wordOfBytes (a b : Byte) : highByte (wordOfBytes a b) = a := by
  rw [highByte, wordOfBytes, extract_high _ b _ _ (by omega)]
  exact BitVec.extractLsb'_eq_self

@[simp] theorem lowByte_wordOfBytes (a b : Byte) : lowByte (wordOfBytes a b) = b := by
  rw [lowByte, wordOfBytes, extract_low _ _ _ _ (by omega) (by omega)]
  exact BitVec.extractLsb'_eq_self

/-- The bytes of an encoded instruction decode as the word (R52). -/
theorem decodeBytes_encodeBytes (i : Instr) (rest : List Byte) :
    decodeBytes (encodeBytes i ++ rest) = .ok (decodeWord (encode i), rest) := by
  simp [encodeBytes, decodeBytes]

end Sys2Proof
end

