-- ==== Sys2Proof/Laws/State.lean ====
section
/-! SUPPORT. What each update of the state does to each field, and to each named read: true by `rfl`, so that no later proof
unfolds a record update. -/

namespace Sys2Proof.Machine

/-! ### `State.writeV` -/

@[simp] theorem State.writeV_v (s : State) (x : Nibble) (b : Byte) : (s.writeV x b).v = s.v.set x.toNat b x.isLt := rfl
@[simp] theorem State.writeV_i (s : State) (x : Nibble) (b : Byte) : (s.writeV x b).i = s.i := rfl
@[simp] theorem State.writeV_pc (s : State) (x : Nibble) (b : Byte) : (s.writeV x b).pc = s.pc := rfl
@[simp] theorem State.writeV_stack (s : State) (x : Nibble) (b : Byte) : (s.writeV x b).stack = s.stack := rfl
@[simp] theorem State.writeV_sp (s : State) (x : Nibble) (b : Byte) : (s.writeV x b).sp = s.sp := rfl
@[simp] theorem State.writeV_dt (s : State) (x : Nibble) (b : Byte) : (s.writeV x b).dt = s.dt := rfl
@[simp] theorem State.writeV_st (s : State) (x : Nibble) (b : Byte) : (s.writeV x b).st = s.st := rfl
@[simp] theorem State.writeV_fb (s : State) (x : Nibble) (b : Byte) : (s.writeV x b).fb = s.fb := rfl
@[simp] theorem State.writeV_k (s : State) (x : Nibble) (b : Byte) : (s.writeV x b).k = s.k := rfl
@[simp] theorem State.writeV_opc (s : State) (x : Nibble) (b : Byte) : (s.writeV x b).opc = s.opc := rfl
@[simp] theorem State.writeV_mem (s : State) (x : Nibble) (b : Byte) : (s.writeV x b).mem = s.mem := rfl
@[simp] theorem State.writeV_font (s : State) (x : Nibble) (b : Byte) : (s.writeV x b).font = s.font := rfl
@[simp] theorem State.writeV_rndSeq (s : State) (x : Nibble) (b : Byte) : (s.writeV x b).rndSeq = s.rndSeq := rfl
@[simp] theorem State.writeV_draws (s : State) (x : Nibble) (b : Byte) : (s.writeV x b).draws = s.draws := rfl
@[simp] theorem State.writeV_readStack (s : State) (x : Nibble) (b : Byte) (e : Fin 16) : (s.writeV x b).readStack e = s.readStack e := rfl
@[simp] theorem State.writeV_load (s : State) (x : Nibble) (b : Byte) (a : Nat) : (s.writeV x b).load a = s.load a := rfl
@[simp] theorem State.writeV_loadBytes (s : State) (x : Nibble) (b : Byte) (a len : Nat) : (s.writeV x b).loadBytes a len = s.loadBytes a len := by
  induction len generalizing a with
  | zero => rfl
  | succ len ih => simp only [State.loadBytes, State.writeV_load, ih]
@[simp] theorem State.writeV_base (s : State) (x : Nibble) (b : Byte) : (s.writeV x b).base = s.base := rfl

/-! ### `State.setI` -/

@[simp] theorem State.setI_v (s : State) (w : Word) : (s.setI w).v = s.v := rfl
@[simp] theorem State.setI_i (s : State) (w : Word) : (s.setI w).i = w := rfl
@[simp] theorem State.setI_pc (s : State) (w : Word) : (s.setI w).pc = s.pc := rfl
@[simp] theorem State.setI_stack (s : State) (w : Word) : (s.setI w).stack = s.stack := rfl
@[simp] theorem State.setI_sp (s : State) (w : Word) : (s.setI w).sp = s.sp := rfl
@[simp] theorem State.setI_dt (s : State) (w : Word) : (s.setI w).dt = s.dt := rfl
@[simp] theorem State.setI_st (s : State) (w : Word) : (s.setI w).st = s.st := rfl
@[simp] theorem State.setI_fb (s : State) (w : Word) : (s.setI w).fb = s.fb := rfl
@[simp] theorem State.setI_k (s : State) (w : Word) : (s.setI w).k = s.k := rfl
@[simp] theorem State.setI_opc (s : State) (w : Word) : (s.setI w).opc = s.opc := rfl
@[simp] theorem State.setI_mem (s : State) (w : Word) : (s.setI w).mem = s.mem := rfl
@[simp] theorem State.setI_font (s : State) (w : Word) : (s.setI w).font = s.font := rfl
@[simp] theorem State.setI_rndSeq (s : State) (w : Word) : (s.setI w).rndSeq = s.rndSeq := rfl
@[simp] theorem State.setI_draws (s : State) (w : Word) : (s.setI w).draws = s.draws := rfl
@[simp] theorem State.setI_readV (s : State) (w : Word) (r : Nibble) : (s.setI w).readV r = s.readV r := rfl
@[simp] theorem State.setI_readStack (s : State) (w : Word) (e : Fin 16) : (s.setI w).readStack e = s.readStack e := rfl
@[simp] theorem State.setI_load (s : State) (w : Word) (a : Nat) : (s.setI w).load a = s.load a := rfl
@[simp] theorem State.setI_loadBytes (s : State) (w : Word) (a len : Nat) : (s.setI w).loadBytes a len = s.loadBytes a len := by
  induction len generalizing a with
  | zero => rfl
  | succ len ih => simp only [State.loadBytes, State.setI_load, ih]

/-! ### `State.setPc` -/

@[simp] theorem State.setPc_v (s : State) (w : Word) : (s.setPc w).v = s.v := rfl
@[simp] theorem State.setPc_i (s : State) (w : Word) : (s.setPc w).i = s.i := rfl
@[simp] theorem State.setPc_pc (s : State) (w : Word) : (s.setPc w).pc = w := rfl
@[simp] theorem State.setPc_stack (s : State) (w : Word) : (s.setPc w).stack = s.stack := rfl
@[simp] theorem State.setPc_sp (s : State) (w : Word) : (s.setPc w).sp = s.sp := rfl
@[simp] theorem State.setPc_dt (s : State) (w : Word) : (s.setPc w).dt = s.dt := rfl
@[simp] theorem State.setPc_st (s : State) (w : Word) : (s.setPc w).st = s.st := rfl
@[simp] theorem State.setPc_fb (s : State) (w : Word) : (s.setPc w).fb = s.fb := rfl
@[simp] theorem State.setPc_k (s : State) (w : Word) : (s.setPc w).k = s.k := rfl
@[simp] theorem State.setPc_opc (s : State) (w : Word) : (s.setPc w).opc = s.opc := rfl
@[simp] theorem State.setPc_mem (s : State) (w : Word) : (s.setPc w).mem = s.mem := rfl
@[simp] theorem State.setPc_font (s : State) (w : Word) : (s.setPc w).font = s.font := rfl
@[simp] theorem State.setPc_rndSeq (s : State) (w : Word) : (s.setPc w).rndSeq = s.rndSeq := rfl
@[simp] theorem State.setPc_draws (s : State) (w : Word) : (s.setPc w).draws = s.draws := rfl
@[simp] theorem State.setPc_readV (s : State) (w : Word) (r : Nibble) : (s.setPc w).readV r = s.readV r := rfl
@[simp] theorem State.setPc_readStack (s : State) (w : Word) (e : Fin 16) : (s.setPc w).readStack e = s.readStack e := rfl
@[simp] theorem State.setPc_load (s : State) (w : Word) (a : Nat) : (s.setPc w).load a = s.load a := rfl
@[simp] theorem State.setPc_loadBytes (s : State) (w : Word) (a len : Nat) : (s.setPc w).loadBytes a len = s.loadBytes a len := by
  induction len generalizing a with
  | zero => rfl
  | succ len ih => simp only [State.loadBytes, State.setPc_load, ih]
@[simp] theorem State.setPc_base (s : State) (w : Word) : (s.setPc w).base = s.base := rfl

/-! ### `State.setSp` -/

@[simp] theorem State.setSp_v (s : State) (n : BitVec 5) : (s.setSp n).v = s.v := rfl
@[simp] theorem State.setSp_i (s : State) (n : BitVec 5) : (s.setSp n).i = s.i := rfl
@[simp] theorem State.setSp_pc (s : State) (n : BitVec 5) : (s.setSp n).pc = s.pc := rfl
@[simp] theorem State.setSp_stack (s : State) (n : BitVec 5) : (s.setSp n).stack = s.stack := rfl
@[simp] theorem State.setSp_sp (s : State) (n : BitVec 5) : (s.setSp n).sp = n := rfl
@[simp] theorem State.setSp_dt (s : State) (n : BitVec 5) : (s.setSp n).dt = s.dt := rfl
@[simp] theorem State.setSp_st (s : State) (n : BitVec 5) : (s.setSp n).st = s.st := rfl
@[simp] theorem State.setSp_fb (s : State) (n : BitVec 5) : (s.setSp n).fb = s.fb := rfl
@[simp] theorem State.setSp_k (s : State) (n : BitVec 5) : (s.setSp n).k = s.k := rfl
@[simp] theorem State.setSp_opc (s : State) (n : BitVec 5) : (s.setSp n).opc = s.opc := rfl
@[simp] theorem State.setSp_mem (s : State) (n : BitVec 5) : (s.setSp n).mem = s.mem := rfl
@[simp] theorem State.setSp_font (s : State) (n : BitVec 5) : (s.setSp n).font = s.font := rfl
@[simp] theorem State.setSp_rndSeq (s : State) (n : BitVec 5) : (s.setSp n).rndSeq = s.rndSeq := rfl
@[simp] theorem State.setSp_draws (s : State) (n : BitVec 5) : (s.setSp n).draws = s.draws := rfl
@[simp] theorem State.setSp_readV (s : State) (n : BitVec 5) (r : Nibble) : (s.setSp n).readV r = s.readV r := rfl
@[simp] theorem State.setSp_readStack (s : State) (n : BitVec 5) (e : Fin 16) : (s.setSp n).readStack e = s.readStack e := rfl
@[simp] theorem State.setSp_load (s : State) (n : BitVec 5) (a : Nat) : (s.setSp n).load a = s.load a := rfl
@[simp] theorem State.setSp_loadBytes (s : State) (n : BitVec 5) (a len : Nat) : (s.setSp n).loadBytes a len = s.loadBytes a len := by
  induction len generalizing a with
  | zero => rfl
  | succ len ih => simp only [State.loadBytes, State.setSp_load, ih]
@[simp] theorem State.setSp_base (s : State) (n : BitVec 5) : (s.setSp n).base = s.base := rfl

/-! ### `State.writeStack` -/

@[simp] theorem State.writeStack_v (s : State) (n : Fin 16) (w : Word) : (s.writeStack n w).v = s.v := rfl
@[simp] theorem State.writeStack_i (s : State) (n : Fin 16) (w : Word) : (s.writeStack n w).i = s.i := rfl
@[simp] theorem State.writeStack_pc (s : State) (n : Fin 16) (w : Word) : (s.writeStack n w).pc = s.pc := rfl
@[simp] theorem State.writeStack_stack (s : State) (n : Fin 16) (w : Word) : (s.writeStack n w).stack = s.stack.set n w := rfl
@[simp] theorem State.writeStack_sp (s : State) (n : Fin 16) (w : Word) : (s.writeStack n w).sp = s.sp := rfl
@[simp] theorem State.writeStack_dt (s : State) (n : Fin 16) (w : Word) : (s.writeStack n w).dt = s.dt := rfl
@[simp] theorem State.writeStack_st (s : State) (n : Fin 16) (w : Word) : (s.writeStack n w).st = s.st := rfl
@[simp] theorem State.writeStack_fb (s : State) (n : Fin 16) (w : Word) : (s.writeStack n w).fb = s.fb := rfl
@[simp] theorem State.writeStack_k (s : State) (n : Fin 16) (w : Word) : (s.writeStack n w).k = s.k := rfl
@[simp] theorem State.writeStack_opc (s : State) (n : Fin 16) (w : Word) : (s.writeStack n w).opc = s.opc := rfl
@[simp] theorem State.writeStack_mem (s : State) (n : Fin 16) (w : Word) : (s.writeStack n w).mem = s.mem := rfl
@[simp] theorem State.writeStack_font (s : State) (n : Fin 16) (w : Word) : (s.writeStack n w).font = s.font := rfl
@[simp] theorem State.writeStack_rndSeq (s : State) (n : Fin 16) (w : Word) : (s.writeStack n w).rndSeq = s.rndSeq := rfl
@[simp] theorem State.writeStack_draws (s : State) (n : Fin 16) (w : Word) : (s.writeStack n w).draws = s.draws := rfl
@[simp] theorem State.writeStack_readV (s : State) (n : Fin 16) (w : Word) (r : Nibble) : (s.writeStack n w).readV r = s.readV r := rfl
@[simp] theorem State.writeStack_load (s : State) (n : Fin 16) (w : Word) (a : Nat) : (s.writeStack n w).load a = s.load a := rfl
@[simp] theorem State.writeStack_loadBytes (s : State) (n : Fin 16) (w : Word) (a len : Nat) : (s.writeStack n w).loadBytes a len = s.loadBytes a len := by
  induction len generalizing a with
  | zero => rfl
  | succ len ih => simp only [State.loadBytes, State.writeStack_load, ih]
@[simp] theorem State.writeStack_base (s : State) (n : Fin 16) (w : Word) : (s.writeStack n w).base = s.base := rfl

/-! ### `State.setDt` -/

@[simp] theorem State.setDt_v (s : State) (b : Byte) : (s.setDt b).v = s.v := rfl
@[simp] theorem State.setDt_i (s : State) (b : Byte) : (s.setDt b).i = s.i := rfl
@[simp] theorem State.setDt_pc (s : State) (b : Byte) : (s.setDt b).pc = s.pc := rfl
@[simp] theorem State.setDt_stack (s : State) (b : Byte) : (s.setDt b).stack = s.stack := rfl
@[simp] theorem State.setDt_sp (s : State) (b : Byte) : (s.setDt b).sp = s.sp := rfl
@[simp] theorem State.setDt_dt (s : State) (b : Byte) : (s.setDt b).dt = b := rfl
@[simp] theorem State.setDt_st (s : State) (b : Byte) : (s.setDt b).st = s.st := rfl
@[simp] theorem State.setDt_fb (s : State) (b : Byte) : (s.setDt b).fb = s.fb := rfl
@[simp] theorem State.setDt_k (s : State) (b : Byte) : (s.setDt b).k = s.k := rfl
@[simp] theorem State.setDt_opc (s : State) (b : Byte) : (s.setDt b).opc = s.opc := rfl
@[simp] theorem State.setDt_mem (s : State) (b : Byte) : (s.setDt b).mem = s.mem := rfl
@[simp] theorem State.setDt_font (s : State) (b : Byte) : (s.setDt b).font = s.font := rfl
@[simp] theorem State.setDt_rndSeq (s : State) (b : Byte) : (s.setDt b).rndSeq = s.rndSeq := rfl
@[simp] theorem State.setDt_draws (s : State) (b : Byte) : (s.setDt b).draws = s.draws := rfl
@[simp] theorem State.setDt_readV (s : State) (b : Byte) (r : Nibble) : (s.setDt b).readV r = s.readV r := rfl
@[simp] theorem State.setDt_readStack (s : State) (b : Byte) (e : Fin 16) : (s.setDt b).readStack e = s.readStack e := rfl
@[simp] theorem State.setDt_load (s : State) (b : Byte) (a : Nat) : (s.setDt b).load a = s.load a := rfl
@[simp] theorem State.setDt_loadBytes (s : State) (b : Byte) (a len : Nat) : (s.setDt b).loadBytes a len = s.loadBytes a len := by
  induction len generalizing a with
  | zero => rfl
  | succ len ih => simp only [State.loadBytes, State.setDt_load, ih]
@[simp] theorem State.setDt_base (s : State) (b : Byte) : (s.setDt b).base = s.base := rfl

/-! ### `State.setSt` -/

@[simp] theorem State.setSt_v (s : State) (b : Byte) : (s.setSt b).v = s.v := rfl
@[simp] theorem State.setSt_i (s : State) (b : Byte) : (s.setSt b).i = s.i := rfl
@[simp] theorem State.setSt_pc (s : State) (b : Byte) : (s.setSt b).pc = s.pc := rfl
@[simp] theorem State.setSt_stack (s : State) (b : Byte) : (s.setSt b).stack = s.stack := rfl
@[simp] theorem State.setSt_sp (s : State) (b : Byte) : (s.setSt b).sp = s.sp := rfl
@[simp] theorem State.setSt_dt (s : State) (b : Byte) : (s.setSt b).dt = s.dt := rfl
@[simp] theorem State.setSt_st (s : State) (b : Byte) : (s.setSt b).st = b := rfl
@[simp] theorem State.setSt_fb (s : State) (b : Byte) : (s.setSt b).fb = s.fb := rfl
@[simp] theorem State.setSt_k (s : State) (b : Byte) : (s.setSt b).k = s.k := rfl
@[simp] theorem State.setSt_opc (s : State) (b : Byte) : (s.setSt b).opc = s.opc := rfl
@[simp] theorem State.setSt_mem (s : State) (b : Byte) : (s.setSt b).mem = s.mem := rfl
@[simp] theorem State.setSt_font (s : State) (b : Byte) : (s.setSt b).font = s.font := rfl
@[simp] theorem State.setSt_rndSeq (s : State) (b : Byte) : (s.setSt b).rndSeq = s.rndSeq := rfl
@[simp] theorem State.setSt_draws (s : State) (b : Byte) : (s.setSt b).draws = s.draws := rfl
@[simp] theorem State.setSt_readV (s : State) (b : Byte) (r : Nibble) : (s.setSt b).readV r = s.readV r := rfl
@[simp] theorem State.setSt_readStack (s : State) (b : Byte) (e : Fin 16) : (s.setSt b).readStack e = s.readStack e := rfl
@[simp] theorem State.setSt_load (s : State) (b : Byte) (a : Nat) : (s.setSt b).load a = s.load a := rfl
@[simp] theorem State.setSt_loadBytes (s : State) (b : Byte) (a len : Nat) : (s.setSt b).loadBytes a len = s.loadBytes a len := by
  induction len generalizing a with
  | zero => rfl
  | succ len ih => simp only [State.loadBytes, State.setSt_load, ih]
@[simp] theorem State.setSt_base (s : State) (b : Byte) : (s.setSt b).base = s.base := rfl

/-! ### `State.setFb` -/

@[simp] theorem State.setFb_v (s : State) (f : Frame) : (s.setFb f).v = s.v := rfl
@[simp] theorem State.setFb_i (s : State) (f : Frame) : (s.setFb f).i = s.i := rfl
@[simp] theorem State.setFb_pc (s : State) (f : Frame) : (s.setFb f).pc = s.pc := rfl
@[simp] theorem State.setFb_stack (s : State) (f : Frame) : (s.setFb f).stack = s.stack := rfl
@[simp] theorem State.setFb_sp (s : State) (f : Frame) : (s.setFb f).sp = s.sp := rfl
@[simp] theorem State.setFb_dt (s : State) (f : Frame) : (s.setFb f).dt = s.dt := rfl
@[simp] theorem State.setFb_st (s : State) (f : Frame) : (s.setFb f).st = s.st := rfl
@[simp] theorem State.setFb_fb (s : State) (f : Frame) : (s.setFb f).fb = f := rfl
@[simp] theorem State.setFb_k (s : State) (f : Frame) : (s.setFb f).k = s.k := rfl
@[simp] theorem State.setFb_opc (s : State) (f : Frame) : (s.setFb f).opc = s.opc := rfl
@[simp] theorem State.setFb_mem (s : State) (f : Frame) : (s.setFb f).mem = s.mem := rfl
@[simp] theorem State.setFb_font (s : State) (f : Frame) : (s.setFb f).font = s.font := rfl
@[simp] theorem State.setFb_rndSeq (s : State) (f : Frame) : (s.setFb f).rndSeq = s.rndSeq := rfl
@[simp] theorem State.setFb_draws (s : State) (f : Frame) : (s.setFb f).draws = s.draws := rfl
@[simp] theorem State.setFb_readV (s : State) (f : Frame) (r : Nibble) : (s.setFb f).readV r = s.readV r := rfl
@[simp] theorem State.setFb_readStack (s : State) (f : Frame) (e : Fin 16) : (s.setFb f).readStack e = s.readStack e := rfl
@[simp] theorem State.setFb_load (s : State) (f : Frame) (a : Nat) : (s.setFb f).load a = s.load a := rfl
@[simp] theorem State.setFb_loadBytes (s : State) (f : Frame) (a len : Nat) : (s.setFb f).loadBytes a len = s.loadBytes a len := by
  induction len generalizing a with
  | zero => rfl
  | succ len ih => simp only [State.loadBytes, State.setFb_load, ih]
@[simp] theorem State.setFb_base (s : State) (f : Frame) : (s.setFb f).base = s.base := rfl

/-! ### `State.setK` -/

@[simp] theorem State.setK_v (s : State) (k : Vector Bool 16) : (s.setK k).v = s.v := rfl
@[simp] theorem State.setK_i (s : State) (k : Vector Bool 16) : (s.setK k).i = s.i := rfl
@[simp] theorem State.setK_pc (s : State) (k : Vector Bool 16) : (s.setK k).pc = s.pc := rfl
@[simp] theorem State.setK_stack (s : State) (k : Vector Bool 16) : (s.setK k).stack = s.stack := rfl
@[simp] theorem State.setK_sp (s : State) (k : Vector Bool 16) : (s.setK k).sp = s.sp := rfl
@[simp] theorem State.setK_dt (s : State) (k : Vector Bool 16) : (s.setK k).dt = s.dt := rfl
@[simp] theorem State.setK_st (s : State) (k : Vector Bool 16) : (s.setK k).st = s.st := rfl
@[simp] theorem State.setK_fb (s : State) (k : Vector Bool 16) : (s.setK k).fb = s.fb := rfl
@[simp] theorem State.setK_k (s : State) (k : Vector Bool 16) : (s.setK k).k = k := rfl
@[simp] theorem State.setK_opc (s : State) (k : Vector Bool 16) : (s.setK k).opc = s.opc := rfl
@[simp] theorem State.setK_mem (s : State) (k : Vector Bool 16) : (s.setK k).mem = s.mem := rfl
@[simp] theorem State.setK_font (s : State) (k : Vector Bool 16) : (s.setK k).font = s.font := rfl
@[simp] theorem State.setK_rndSeq (s : State) (k : Vector Bool 16) : (s.setK k).rndSeq = s.rndSeq := rfl
@[simp] theorem State.setK_draws (s : State) (k : Vector Bool 16) : (s.setK k).draws = s.draws := rfl
@[simp] theorem State.setK_readV (s : State) (k : Vector Bool 16) (r : Nibble) : (s.setK k).readV r = s.readV r := rfl
@[simp] theorem State.setK_readStack (s : State) (k : Vector Bool 16) (e : Fin 16) : (s.setK k).readStack e = s.readStack e := rfl
@[simp] theorem State.setK_load (s : State) (k : Vector Bool 16) (a : Nat) : (s.setK k).load a = s.load a := rfl
@[simp] theorem State.setK_loadBytes (s : State) (k : Vector Bool 16) (a len : Nat) : (s.setK k).loadBytes a len = s.loadBytes a len := by
  induction len generalizing a with
  | zero => rfl
  | succ len ih => simp only [State.loadBytes, State.setK_load, ih]
@[simp] theorem State.setK_base (s : State) (k : Vector Bool 16) : (s.setK k).base = s.base := rfl

/-! ### `State.setOpc` -/

@[simp] theorem State.setOpc_v (s : State) (w : Word) : (s.setOpc w).v = s.v := rfl
@[simp] theorem State.setOpc_i (s : State) (w : Word) : (s.setOpc w).i = s.i := rfl
@[simp] theorem State.setOpc_pc (s : State) (w : Word) : (s.setOpc w).pc = s.pc := rfl
@[simp] theorem State.setOpc_stack (s : State) (w : Word) : (s.setOpc w).stack = s.stack := rfl
@[simp] theorem State.setOpc_sp (s : State) (w : Word) : (s.setOpc w).sp = s.sp := rfl
@[simp] theorem State.setOpc_dt (s : State) (w : Word) : (s.setOpc w).dt = s.dt := rfl
@[simp] theorem State.setOpc_st (s : State) (w : Word) : (s.setOpc w).st = s.st := rfl
@[simp] theorem State.setOpc_fb (s : State) (w : Word) : (s.setOpc w).fb = s.fb := rfl
@[simp] theorem State.setOpc_k (s : State) (w : Word) : (s.setOpc w).k = s.k := rfl
@[simp] theorem State.setOpc_opc (s : State) (w : Word) : (s.setOpc w).opc = w := rfl
@[simp] theorem State.setOpc_mem (s : State) (w : Word) : (s.setOpc w).mem = s.mem := rfl
@[simp] theorem State.setOpc_font (s : State) (w : Word) : (s.setOpc w).font = s.font := rfl
@[simp] theorem State.setOpc_rndSeq (s : State) (w : Word) : (s.setOpc w).rndSeq = s.rndSeq := rfl
@[simp] theorem State.setOpc_draws (s : State) (w : Word) : (s.setOpc w).draws = s.draws := rfl
@[simp] theorem State.setOpc_readV (s : State) (w : Word) (r : Nibble) : (s.setOpc w).readV r = s.readV r := rfl
@[simp] theorem State.setOpc_readStack (s : State) (w : Word) (e : Fin 16) : (s.setOpc w).readStack e = s.readStack e := rfl
@[simp] theorem State.setOpc_load (s : State) (w : Word) (a : Nat) : (s.setOpc w).load a = s.load a := rfl
@[simp] theorem State.setOpc_loadBytes (s : State) (w : Word) (a len : Nat) : (s.setOpc w).loadBytes a len = s.loadBytes a len := by
  induction len generalizing a with
  | zero => rfl
  | succ len ih => simp only [State.loadBytes, State.setOpc_load, ih]
@[simp] theorem State.setOpc_base (s : State) (w : Word) : (s.setOpc w).base = s.base := rfl

/-! ### `State.setMem` -/

@[simp] theorem State.setMem_v (s : State) (m : List Host.Cell) : (s.setMem m).v = s.v := rfl
@[simp] theorem State.setMem_i (s : State) (m : List Host.Cell) : (s.setMem m).i = s.i := rfl
@[simp] theorem State.setMem_pc (s : State) (m : List Host.Cell) : (s.setMem m).pc = s.pc := rfl
@[simp] theorem State.setMem_stack (s : State) (m : List Host.Cell) : (s.setMem m).stack = s.stack := rfl
@[simp] theorem State.setMem_sp (s : State) (m : List Host.Cell) : (s.setMem m).sp = s.sp := rfl
@[simp] theorem State.setMem_dt (s : State) (m : List Host.Cell) : (s.setMem m).dt = s.dt := rfl
@[simp] theorem State.setMem_st (s : State) (m : List Host.Cell) : (s.setMem m).st = s.st := rfl
@[simp] theorem State.setMem_fb (s : State) (m : List Host.Cell) : (s.setMem m).fb = s.fb := rfl
@[simp] theorem State.setMem_k (s : State) (m : List Host.Cell) : (s.setMem m).k = s.k := rfl
@[simp] theorem State.setMem_opc (s : State) (m : List Host.Cell) : (s.setMem m).opc = s.opc := rfl
@[simp] theorem State.setMem_mem (s : State) (m : List Host.Cell) : (s.setMem m).mem = m := rfl
@[simp] theorem State.setMem_font (s : State) (m : List Host.Cell) : (s.setMem m).font = s.font := rfl
@[simp] theorem State.setMem_rndSeq (s : State) (m : List Host.Cell) : (s.setMem m).rndSeq = s.rndSeq := rfl
@[simp] theorem State.setMem_draws (s : State) (m : List Host.Cell) : (s.setMem m).draws = s.draws := rfl
@[simp] theorem State.setMem_readV (s : State) (m : List Host.Cell) (r : Nibble) : (s.setMem m).readV r = s.readV r := rfl
@[simp] theorem State.setMem_readStack (s : State) (m : List Host.Cell) (e : Fin 16) : (s.setMem m).readStack e = s.readStack e := rfl
@[simp] theorem State.setMem_base (s : State) (m : List Host.Cell) : (s.setMem m).base = s.base := rfl

/-! ### `State.setRnd` -/

@[simp] theorem State.setRnd_v (s : State) (bytes : List Byte) (n : Nat) : (s.setRnd bytes n).v = s.v := rfl
@[simp] theorem State.setRnd_i (s : State) (bytes : List Byte) (n : Nat) : (s.setRnd bytes n).i = s.i := rfl
@[simp] theorem State.setRnd_pc (s : State) (bytes : List Byte) (n : Nat) : (s.setRnd bytes n).pc = s.pc := rfl
@[simp] theorem State.setRnd_stack (s : State) (bytes : List Byte) (n : Nat) : (s.setRnd bytes n).stack = s.stack := rfl
@[simp] theorem State.setRnd_sp (s : State) (bytes : List Byte) (n : Nat) : (s.setRnd bytes n).sp = s.sp := rfl
@[simp] theorem State.setRnd_dt (s : State) (bytes : List Byte) (n : Nat) : (s.setRnd bytes n).dt = s.dt := rfl
@[simp] theorem State.setRnd_st (s : State) (bytes : List Byte) (n : Nat) : (s.setRnd bytes n).st = s.st := rfl
@[simp] theorem State.setRnd_fb (s : State) (bytes : List Byte) (n : Nat) : (s.setRnd bytes n).fb = s.fb := rfl
@[simp] theorem State.setRnd_k (s : State) (bytes : List Byte) (n : Nat) : (s.setRnd bytes n).k = s.k := rfl
@[simp] theorem State.setRnd_opc (s : State) (bytes : List Byte) (n : Nat) : (s.setRnd bytes n).opc = s.opc := rfl
@[simp] theorem State.setRnd_mem (s : State) (bytes : List Byte) (n : Nat) : (s.setRnd bytes n).mem = s.mem := rfl
@[simp] theorem State.setRnd_font (s : State) (bytes : List Byte) (n : Nat) : (s.setRnd bytes n).font = s.font := rfl
@[simp] theorem State.setRnd_rndSeq (s : State) (bytes : List Byte) (n : Nat) : (s.setRnd bytes n).rndSeq = bytes := rfl
@[simp] theorem State.setRnd_draws (s : State) (bytes : List Byte) (n : Nat) : (s.setRnd bytes n).draws = n := rfl
@[simp] theorem State.setRnd_readV (s : State) (bytes : List Byte) (n : Nat) (r : Nibble) : (s.setRnd bytes n).readV r = s.readV r := rfl
@[simp] theorem State.setRnd_readStack (s : State) (bytes : List Byte) (n : Nat) (e : Fin 16) : (s.setRnd bytes n).readStack e = s.readStack e := rfl
@[simp] theorem State.setRnd_load (s : State) (bytes : List Byte) (n : Nat) (a : Nat) : (s.setRnd bytes n).load a = s.load a := rfl
@[simp] theorem State.setRnd_loadBytes (s : State) (bytes : List Byte) (n : Nat) (a len : Nat) : (s.setRnd bytes n).loadBytes a len = s.loadBytes a len := by
  induction len generalizing a with
  | zero => rfl
  | succ len ih => simp only [State.loadBytes, State.setRnd_load, ih]
@[simp] theorem State.setRnd_base (s : State) (bytes : List Byte) (n : Nat) : (s.setRnd bytes n).base = s.base := rfl

/-! ### Reads after the updates of the same field -/

@[simp] theorem State.setI_base (s : State) (w : Word) : (s.setI w).base = w.toNat := rfl

/-- A register reads as written, and every other register as before. -/
@[simp] theorem State.writeV_readV (s : State) (x : Nibble) (b : Byte) (r : Nibble) :
    (s.writeV x b).readV r = if r = x then b else s.readV r := by
  simp only [State.readV, State.writeV, Vector.getElem_set, eq_comm (a := r), BitVec.toNat_inj]

/-- A stack entry reads as written, and every other entry as before. -/
@[simp] theorem State.writeStack_readStack (s : State) (n : Fin 16) (w : Word) (m : Fin 16) :
    (s.writeStack n w).readStack m = if m = n then w else s.readStack m := by
  simp only [State.readStack, State.writeStack, Fin.getElem_fin, Vector.getElem_set, Fin.ext_iff, eq_comm (a := (m : Nat))]

end Sys2Proof.Machine
end

