-- ==== Sys2Proof/Laws/Display.lean ====
section
/-! SUPPORT. The laws of the sprite blitter: what a draw does to every cell of the display, and when it reports a
collision. -/

namespace Sys2Proof.Machine

/-- Outside the grid there is no pixel. -/
theorem cellAt_outside (f : Frame) {r c : Nat} (h : ¬ (r < 32 ∧ c < 64)) : cellAt f r c = false := by
  rw [cellAt, dif_neg h]

theorem lt_of_cellAt {f : Frame} {r c : Nat} (h : cellAt f r c = true) : r < 32 ∧ c < 64 := by
  by_contra hn
  rw [cellAt_outside f hn] at h
  exact Bool.false_ne_true h

@[simp] theorem cellAt_blankFrame (r c : Nat) : cellAt blankFrame r c = false := by
  simp [cellAt, blankFrame]

/-- Toggling a cell of the grid flips it and no other; toggling outside the grid does nothing. -/
theorem cellAt_toggleCell (f : Frame) (r c r' c' : Nat) :
    cellAt (toggleCell f r c) r' c' = (cellAt f r' c' ^^ decide (r' = r ∧ c' = c ∧ r < 32 ∧ c < 64)) := by
  by_cases h : r < 32 ∧ c < 64
  · by_cases h' : r' < 32 ∧ c' < 64
    · rw [toggleCell, dif_pos h, cellAt, dif_pos h', cellAt, dif_pos h']
      by_cases hr : r = r'
      · subst hr
        by_cases hc : c = c'
        · subst hc; simp [h.1, h.2]
        · simp [hc, Ne.symm hc]
      · simp [hr, Ne.symm hr]
    · rw [cellAt_outside _ h', cellAt_outside _ h']
      simp only [Bool.false_xor, Bool.false_eq, decide_eq_false_iff_not]
      rintro ⟨rfl, rfl, h1⟩
      exact h' h1
  · rw [toggleCell, dif_neg h]
    have : ¬ (r' = r ∧ c' = c ∧ r < 32 ∧ c < 64) := fun hh => h hh.2.2
    simp [this]

/-- The cells of one sprite row: bits `n-1 .. 0` of the byte, at the columns that end with `x0 + 7`. -/
theorem cellAt_drawBits (n : Nat) (hn : n ≤ 8) (d : Frame × Bool) (r x0 : Nat) (b : Byte) (r' c' : Nat) :
    cellAt (drawBits d r x0 b n).1 r' c' =
      (cellAt d.1 r' c' ^^ decide (r' = r ∧ x0 + 8 - n ≤ c' ∧ c' < x0 + 8 ∧ b.getLsbD (7 - (c' - x0)) = true ∧
        r' < 32 ∧ c' < 64)) := by
  induction n generalizing d with
  | zero =>
    have : ¬ (r' = r ∧ x0 + 8 - 0 ≤ c' ∧ c' < x0 + 8 ∧ b.getLsbD (7 - (c' - x0)) = true ∧ r' < 32 ∧ c' < 64) := by omega
    rw [drawBits, decide_eq_false this, Bool.xor_false]
  | succ n ih =>
    rw [drawBits, ih (by omega)]
    have key : cellAt (if b.getLsbD n = true then drawPixel d r (x0 + (7 - n)) else d).1 r' c' =
        (cellAt d.1 r' c' ^^ decide (b.getLsbD n = true ∧ r' = r ∧ c' = x0 + (7 - n) ∧ r < 32 ∧ x0 + (7 - n) < 64)) := by
      split
      · rename_i hb
        simp only [drawPixel, cellAt_toggleCell, hb, true_and]
      · rename_i hb
        simp [hb]
    rw [key, Bool.xor_assoc]
    congr 1
    by_cases hc : c' = x0 + (7 - n)
    · have e : 7 - (c' - x0) = n := by omega
      have n1 : ¬ (x0 + 8 - n ≤ c') := by omega
      have n2 : x0 + 8 - (n + 1) ≤ c' := by omega
      have n3 : c' < x0 + 8 := by omega
      simp only [e, n1, n2, n3, hc.symm, false_and, and_false, decide_false, Bool.xor_false, true_and]
      congr 1
      apply propext
      constructor
      · rintro ⟨a, rfl, c, d⟩; exact ⟨rfl, a, c, d⟩
      · rintro ⟨rfl, a, c, d⟩; exact ⟨a, rfl, c, d⟩
    · have : (x0 + 8 - (n + 1) ≤ c') = (x0 + 8 - n ≤ c') := by
        apply propext; omega
      simp only [this, hc, false_and, and_false, decide_false, Bool.false_xor]

/-- The collisions of one sprite row. -/
theorem collision_drawBits (n : Nat) (hn : n ≤ 8) (d : Frame × Bool) (r x0 : Nat) (b : Byte) :
    (drawBits d r x0 b n).2 = true ↔
      d.2 = true ∨ ∃ c, x0 + 8 - n ≤ c ∧ c < x0 + 8 ∧ b.getLsbD (7 - (c - x0)) = true ∧ cellAt d.1 r c = true := by
  induction n generalizing d with
  | zero =>
    simp only [drawBits]
    constructor
    · exact .inl
    · rintro (h | ⟨c, h1, h2, -⟩)
      · exact h
      · omega
  | succ n ih =>
    rw [drawBits, ih (by omega)]
    have e : 7 - (x0 + (7 - n) - x0) = n := by omega
    by_cases hb : b.getLsbD n = true
    · simp only [hb, if_true, drawPixel, Bool.or_eq_true, cellAt_toggleCell]
      constructor
      · rintro ((h | h) | ⟨c, h1, h2, h3, h4⟩)
        · exact .inl h
        · exact .inr ⟨x0 + (7 - n), by omega, by omega, by rw [e]; exact hb, h⟩
        · have : ¬ (c = x0 + (7 - n)) := by omega
          exact .inr ⟨c, by omega, h2, h3, by simpa [this] using h4⟩
      · rintro (h | ⟨c, h1, h2, h3, h4⟩)
        · exact .inl (.inl h)
        · by_cases hc : c = x0 + (7 - n)
          · subst hc; exact .inl (.inr h4)
          · exact .inr ⟨c, by omega, h2, h3, by simpa [hc] using h4⟩
    · simp only [hb, Bool.false_eq_true, if_false]
      constructor
      · rintro (h | ⟨c, h1, h2, h3, h4⟩)
        · exact .inl h
        · exact .inr ⟨c, by omega, h2, h3, h4⟩
      · rintro (h | ⟨c, h1, h2, h3, h4⟩)
        · exact .inl h
        · by_cases hc : c = x0 + (7 - n)
          · subst hc; rw [e] at h3; exact absurd h3 hb
          · exact .inr ⟨c, by omega, h2, h3, h4⟩

theorem spriteBit_nil (y0 x0 r c : Nat) : spriteBit [] y0 x0 r c = false := by simp [spriteBit]

/-- A sprite is its first row and, one row further down, the rest. -/
theorem spriteBit_cons (b : Byte) (bs : List Byte) (y0 x0 r c : Nat) :
    spriteBit (b :: bs) y0 x0 r c = true ↔
      (r = y0 ∧ x0 ≤ c ∧ c < x0 + 8 ∧ b.getLsbD (7 - (c - x0)) = true) ∨ spriteBit bs (y0 + 1) x0 r c = true := by
  simp only [spriteBit, Bool.and_eq_true, decide_eq_true_eq]
  rcases Nat.lt_trichotomy r y0 with h | rfl | h
  · have h1 : ¬ y0 ≤ r := by omega
    have h2 : ¬ y0 + 1 ≤ r := by omega
    have h3 : ¬ r = y0 := by omega
    simp [h1, h2, h3]
  · simp
    tauto
  · obtain ⟨d, rfl⟩ : ∃ d, r = y0 + 1 + d := ⟨r - y0 - 1, by omega⟩
    have e1 : y0 + 1 + d - y0 = d + 1 := by omega
    have e2 : y0 + 1 + d - (y0 + 1) = d := by omega
    have h1 : y0 ≤ y0 + 1 + d := by omega
    have h3 : ¬ y0 + 1 + d = y0 := by omega
    simp [e1, e2, h1, h3]

theorem spriteBit_above {bs : List Byte} {y0 x0 r c : Nat} (h : r < y0) : spriteBit bs y0 x0 r c = false := by
  simp [spriteBit, Nat.not_le.mpr h]

/-- After a draw, a cell of the grid is flipped exactly where the sprite has a set bit (R152): XOR, clipped, no wrap. -/
theorem cellAt_drawRows (bs : List Byte) (d : Frame × Bool) (y0 x0 r c : Nat) :
    cellAt (drawRows d y0 x0 bs).1 r c = (cellAt d.1 r c ^^ decide (spriteBit bs y0 x0 r c = true ∧ r < 32 ∧ c < 64)) := by
  induction bs generalizing d y0 with
  | nil => simp [drawRows, spriteBit_nil]
  | cons b rest ih =>
    rw [drawRows, ih, cellAt_drawBits 8 (by omega), Bool.xor_assoc]
    congr 1
    simp only [spriteBit_cons, Nat.add_sub_cancel]
    by_cases hr : r = y0
    · subst hr
      simp only [spriteBit_above (Nat.lt_succ_self r), Bool.false_eq_true, false_and, decide_false, Bool.xor_false, or_false,
        true_and, and_assoc]
    · simp [hr]

/-- A draw reports a collision exactly when a set bit of the sprite falls on a cell that was on before it (R152). -/
theorem collision_drawRows (bs : List Byte) (d : Frame × Bool) (y0 x0 : Nat) :
    (drawRows d y0 x0 bs).2 = true ↔
      d.2 = true ∨ ∃ r c, spriteBit bs y0 x0 r c = true ∧ cellAt d.1 r c = true := by
  induction bs generalizing d y0 with
  | nil => simp [drawRows, spriteBit_nil]
  | cons b rest ih =>
    rw [drawRows, ih, collision_drawBits 8 (by omega), or_assoc]
    simp only [Nat.add_sub_cancel, cellAt_drawBits 8 (Nat.le_refl 8), spriteBit_cons]
    refine or_congr_right ?_
    constructor
    · rintro (⟨c, h1, h2, h3, h4⟩ | ⟨r, c, h1, h2⟩)
      · exact ⟨y0, c, .inl ⟨rfl, h1, h2, h3⟩, h4⟩
      · have hr : ¬ r = y0 := by
          rintro rfl
          rw [spriteBit_above (Nat.lt_succ_self r)] at h1
          exact Bool.false_ne_true h1
        exact ⟨r, c, .inr h1, by simpa [hr] using h2⟩
    · rintro ⟨r, c, ⟨rfl, h1, h2, h3⟩ | h1, h4⟩
      · exact .inl ⟨c, h1, h2, h3, h4⟩
      · have hr : ¬ r = y0 := by
          rintro rfl
          rw [spriteBit_above (Nat.lt_succ_self r)] at h1
          exact Bool.false_ne_true h1
        exact .inr ⟨r, c, h1, by simpa [hr] using h4⟩

/-- Two displays with the same cells are the same display. -/
theorem frame_ext {f g : Frame} (h : ∀ r c, cellAt f r c = cellAt g r c) : f = g := by
  apply Vector.ext
  intro r hr
  apply Vector.ext
  intro c hc
  simpa [cellAt, hr, hc] using h r c

end Sys2Proof.Machine
end

