-- ==== Sys2Proof/Laws/Memory.lean ====
section
/-! SUPPORT. The laws of memory: a read after a write, and that every memory operation keeps the canonical form. -/

namespace Sys2Proof.Machine

/-! ### Reading -/

theorem Memory.read_insert (font : Vector Byte 80) (m : List Host.Cell) (a b : Nat) (v : Byte) :
    Memory.read font (Memory.insert a v m) b = if b = a then v else Memory.read font m b := by
  induction m with
  | nil => simp only [Memory.insert, Memory.read, eq_comm (a := b)]
  | cons c rest ih =>
    obtain ⟨k, w⟩ := c
    simp only [Memory.insert]
    split
    · simp only [Memory.read, eq_comm (a := b)]
    · split
      · subst_vars
        simp only [Memory.read, eq_comm (a := b)]
        split <;> simp_all
      · simp only [Memory.read, ih]
        split
        · rw [if_neg (by omega)]
        · rfl

theorem Memory.read_erase (font : Vector Byte 80) (m : List Host.Cell) (a b : Nat) :
    Memory.read font (Memory.erase a m) b = if b = a then Memory.unlisted font a else Memory.read font m b := by
  induction m with
  | nil =>
    simp only [Memory.erase, List.filter_nil, Memory.read]
    split <;> simp_all
  | cons c rest ih =>
    obtain ⟨k, w⟩ := c
    simp only [Memory.erase] at ih
    by_cases hk : k = a
    · subst hk
      simp only [Memory.erase, List.filter_cons, bne_self_eq_false, Bool.false_eq_true, if_false, ih, Memory.read]
      split <;> simp_all [eq_comm]
    · simp only [Memory.erase, List.filter_cons, bne_iff_ne, ne_eq, hk, not_false_eq_true, if_true, Memory.read, ih]
      split <;> simp_all

/-- A byte written is read back, and every other address reads as before (R57), in any list of cells. -/
theorem Memory.read_write (font : Vector Byte 80) (m : List Host.Cell) (a b : Nat) (v : Byte) :
    Memory.read font (Memory.write font m a v) b = if b = a then v else Memory.read font m b := by
  simp only [Memory.write]
  split
  · simp_all [Memory.read_erase]
  · exact Memory.read_insert font m a b v

/-- The reset contents of the font area are the parameter `FONT` (R51). -/
theorem Memory.unlisted_font (font : Vector Byte 80) (j : Nat) (h : j < 80) :
    Memory.unlisted font (0x050 + j) = font[j] := by
  simp only [Memory.unlisted, Config.fontBase]
  rw [dif_pos (by omega)]
  congr 1
  omega

/-- The reset contents of every other address are 0 (R51). -/
theorem Memory.unlisted_elsewhere (font : Vector Byte 80) (a : Nat) (h : a < 0x050 ∨ 0x0A0 ≤ a) :
    Memory.unlisted font a = 0 := by
  simp only [Memory.unlisted, Config.fontBase]
  rw [dif_neg (by omega)]

/-! ### The canonical form -/

theorem Memory.rising_weaken {low low' : Nat} {m : List Host.Cell} (hl : low' ≤ low) (h : Memory.rising low m = true) :
    Memory.rising low' m = true := by
  cases m with
  | nil => rfl
  | cons c rest =>
    simp only [Memory.rising, Bool.and_eq_true, decide_eq_true_eq] at h ⊢
    exact ⟨by omega, h.2⟩

theorem Memory.rising_insert {low : Nat} {m : List Host.Cell} {a : Nat} {v : Byte} (hl : low ≤ a)
    (h : Memory.rising low m = true) : Memory.rising low (Memory.insert a v m) = true := by
  induction m generalizing low with
  | nil => simpa [Memory.insert, Memory.rising] using hl
  | cons c rest ih =>
    obtain ⟨k, w⟩ := c
    simp only [Memory.rising, Bool.and_eq_true, decide_eq_true_eq] at h
    simp only [Memory.insert]
    split
    · simp only [Memory.rising, Bool.and_eq_true, decide_eq_true_eq]
      exact ⟨hl, by omega, h.2⟩
    · split
      · subst_vars
        simpa [Memory.rising] using h
      · simp only [Memory.rising, Bool.and_eq_true, decide_eq_true_eq]
        exact ⟨h.1, ih (by omega) h.2⟩

theorem Memory.rising_erase {low : Nat} {m : List Host.Cell} (a : Nat) (h : Memory.rising low m = true) :
    Memory.rising low (Memory.erase a m) = true := by
  induction m generalizing low with
  | nil => rfl
  | cons c rest ih =>
    obtain ⟨k, w⟩ := c
    simp only [Memory.rising, Bool.and_eq_true, decide_eq_true_eq] at h
    simp only [Memory.erase] at ih ⊢
    by_cases hk : k = a
    · simp only [List.filter_cons, hk, bne_self_eq_false, Bool.false_eq_true, if_false]
      exact Memory.rising_weaken (by omega) (ih h.2)
    · simp only [List.filter_cons, bne_iff_ne, ne_eq, hk, not_false_eq_true, if_true, Memory.rising, Bool.and_eq_true,
        decide_eq_true_eq]
      exact ⟨h.1, ih h.2⟩

theorem Memory.mem_insert {m : List Host.Cell} {a : Nat} {v : Byte} {c : Host.Cell} (h : c ∈ Memory.insert a v m) :
    c = (a, v) ∨ c ∈ m := by
  induction m with
  | nil => simpa [Memory.insert] using h
  | cons d rest ih =>
    obtain ⟨k, w⟩ := d
    simp only [Memory.insert] at h
    split at h
    · simpa using h
    · split at h
      · simp only [List.mem_cons] at h ⊢
        tauto
      · simp only [List.mem_cons] at h ⊢
        rcases h with h | h
        · exact .inr (.inl h)
        · exact (ih h).imp id .inr

/-- A write inside `M` keeps the canonical form. -/
theorem Memory.write_keeps_wf {font : Vector Byte 80} {m : List Host.Cell} {a : Nat} {v : Byte}
    (ha : a < 4096) (h : Memory.wf font m = true) : Memory.wf font (Memory.write font m a v) = true := by
  simp only [Memory.wf, Bool.and_eq_true, List.all_eq_true] at h ⊢
  simp only [Memory.write]
  split
  · exact ⟨Memory.rising_erase a h.1, fun c hc => h.2 c (List.mem_of_mem_filter hc)⟩
  · rename_i hv
    refine ⟨Memory.rising_insert (Nat.zero_le a) h.1, fun c hc => ?_⟩
    rcases Memory.mem_insert hc with rfl | hc
    · simpa [Config.memSize, ha] using hv
    · exact h.2 c hc

theorem Memory.wf_nil (font : Vector Byte 80) : Memory.wf font [] = true := rfl

/-! ### Loads and stores of a state -/

/-! ### The fields a store leaves -/

@[simp] theorem State.store_v (s : State) (a : Nat) (v : Byte) : (s.store a v).v = s.v := rfl
@[simp] theorem State.store_i (s : State) (a : Nat) (v : Byte) : (s.store a v).i = s.i := rfl
@[simp] theorem State.store_pc (s : State) (a : Nat) (v : Byte) : (s.store a v).pc = s.pc := rfl
@[simp] theorem State.store_stack (s : State) (a : Nat) (v : Byte) : (s.store a v).stack = s.stack := rfl
@[simp] theorem State.store_sp (s : State) (a : Nat) (v : Byte) : (s.store a v).sp = s.sp := rfl
@[simp] theorem State.store_dt (s : State) (a : Nat) (v : Byte) : (s.store a v).dt = s.dt := rfl
@[simp] theorem State.store_st (s : State) (a : Nat) (v : Byte) : (s.store a v).st = s.st := rfl
@[simp] theorem State.store_fb (s : State) (a : Nat) (v : Byte) : (s.store a v).fb = s.fb := rfl
@[simp] theorem State.store_k (s : State) (a : Nat) (v : Byte) : (s.store a v).k = s.k := rfl
@[simp] theorem State.store_opc (s : State) (a : Nat) (v : Byte) : (s.store a v).opc = s.opc := rfl
@[simp] theorem State.store_font (s : State) (a : Nat) (v : Byte) : (s.store a v).font = s.font := rfl
@[simp] theorem State.store_rndSeq (s : State) (a : Nat) (v : Byte) : (s.store a v).rndSeq = s.rndSeq := rfl
@[simp] theorem State.store_draws (s : State) (a : Nat) (v : Byte) : (s.store a v).draws = s.draws := rfl
@[simp] theorem State.store_readV (s : State) (a : Nat) (v : Byte) (r : Nibble) : (s.store a v).readV r = s.readV r := rfl
@[simp] theorem State.store_readStack (s : State) (a : Nat) (v : Byte) (e : Fin 16) : (s.store a v).readStack e = s.readStack e := rfl

@[simp] theorem State.storeBytes_v (s : State) (a : Nat) (bs : List Byte) : (s.storeBytes a bs).v = s.v := by
  induction bs generalizing s a with
  | nil => rfl
  | cons b rest ih => simp only [State.storeBytes, ih, State.store_v]
@[simp] theorem State.storeBytes_i (s : State) (a : Nat) (bs : List Byte) : (s.storeBytes a bs).i = s.i := by
  induction bs generalizing s a with
  | nil => rfl
  | cons b rest ih => simp only [State.storeBytes, ih, State.store_i]
@[simp] theorem State.storeBytes_pc (s : State) (a : Nat) (bs : List Byte) : (s.storeBytes a bs).pc = s.pc := by
  induction bs generalizing s a with
  | nil => rfl
  | cons b rest ih => simp only [State.storeBytes, ih, State.store_pc]
@[simp] theorem State.storeBytes_stack (s : State) (a : Nat) (bs : List Byte) : (s.storeBytes a bs).stack = s.stack := by
  induction bs generalizing s a with
  | nil => rfl
  | cons b rest ih => simp only [State.storeBytes, ih, State.store_stack]
@[simp] theorem State.storeBytes_sp (s : State) (a : Nat) (bs : List Byte) : (s.storeBytes a bs).sp = s.sp := by
  induction bs generalizing s a with
  | nil => rfl
  | cons b rest ih => simp only [State.storeBytes, ih, State.store_sp]
@[simp] theorem State.storeBytes_dt (s : State) (a : Nat) (bs : List Byte) : (s.storeBytes a bs).dt = s.dt := by
  induction bs generalizing s a with
  | nil => rfl
  | cons b rest ih => simp only [State.storeBytes, ih, State.store_dt]
@[simp] theorem State.storeBytes_st (s : State) (a : Nat) (bs : List Byte) : (s.storeBytes a bs).st = s.st := by
  induction bs generalizing s a with
  | nil => rfl
  | cons b rest ih => simp only [State.storeBytes, ih, State.store_st]
@[simp] theorem State.storeBytes_fb (s : State) (a : Nat) (bs : List Byte) : (s.storeBytes a bs).fb = s.fb := by
  induction bs generalizing s a with
  | nil => rfl
  | cons b rest ih => simp only [State.storeBytes, ih, State.store_fb]
@[simp] theorem State.storeBytes_k (s : State) (a : Nat) (bs : List Byte) : (s.storeBytes a bs).k = s.k := by
  induction bs generalizing s a with
  | nil => rfl
  | cons b rest ih => simp only [State.storeBytes, ih, State.store_k]
@[simp] theorem State.storeBytes_opc (s : State) (a : Nat) (bs : List Byte) : (s.storeBytes a bs).opc = s.opc := by
  induction bs generalizing s a with
  | nil => rfl
  | cons b rest ih => simp only [State.storeBytes, ih, State.store_opc]
@[simp] theorem State.storeBytes_font (s : State) (a : Nat) (bs : List Byte) : (s.storeBytes a bs).font = s.font := by
  induction bs generalizing s a with
  | nil => rfl
  | cons b rest ih => simp only [State.storeBytes, ih, State.store_font]
@[simp] theorem State.storeBytes_rndSeq (s : State) (a : Nat) (bs : List Byte) : (s.storeBytes a bs).rndSeq = s.rndSeq := by
  induction bs generalizing s a with
  | nil => rfl
  | cons b rest ih => simp only [State.storeBytes, ih, State.store_rndSeq]
@[simp] theorem State.storeBytes_draws (s : State) (a : Nat) (bs : List Byte) : (s.storeBytes a bs).draws = s.draws := by
  induction bs generalizing s a with
  | nil => rfl
  | cons b rest ih => simp only [State.storeBytes, ih, State.store_draws]
@[simp] theorem State.storeBytes_readV (s : State) (a : Nat) (bs : List Byte) (r : Nibble) : (s.storeBytes a bs).readV r = s.readV r := by
  simp only [State.readV, State.storeBytes_v]
@[simp] theorem State.storeBytes_readStack (s : State) (a : Nat) (bs : List Byte) (e : Fin 16) : (s.storeBytes a bs).readStack e = s.readStack e := by
  simp only [State.readStack, State.storeBytes_stack]

/-- A byte stored is loaded back, and every other address loads as before. -/
@[simp] theorem State.store_load (s : State) (a b : Nat) (v : Byte) :
    (s.store a v).load b = if b = a then v else s.load b := Memory.read_write s.font s.mem a b v

/-- After storing a list from `a` up, the addresses of the list hold its bytes and every other address loads as before. -/
theorem State.storeBytes_load (s : State) (a b : Nat) (bs : List Byte) :
    (s.storeBytes a bs).load b = if h : a ≤ b ∧ b - a < bs.length then bs[b - a]'h.2 else s.load b := by
  induction bs generalizing s a with
  | nil => simp [State.storeBytes]
  | cons v rest ih =>
    rw [State.storeBytes, ih]
    by_cases hba : b = a
    · subst hba
      simp
    · rw [State.store_load, if_neg hba]
      by_cases hlt : a ≤ b
      · obtain ⟨d, rfl⟩ : ∃ d, b = a + 1 + d := ⟨b - a - 1, by omega⟩
        have e1 : a + 1 + d - (a + 1) = d := by omega
        have e2 : a + 1 + d - a = d + 1 := by omega
        simp [e1, e2, hlt]
      · rw [dif_neg (by omega), dif_neg (by omega)]

@[simp] theorem State.loadBytes_length (s : State) (a n : Nat) : (s.loadBytes a n).length = n := by
  induction n generalizing a with
  | zero => rfl
  | succ n ih => simp [State.loadBytes, ih]

/-- The `k`-th byte of a range is the byte at its base plus `k`. -/
@[simp] theorem State.loadBytes_getElem (s : State) (a n k : Nat) (h : k < (s.loadBytes a n).length) :
    (s.loadBytes a n)[k] = s.load (a + k) := by
  induction n generalizing a k with
  | zero => simp [State.loadBytes] at h
  | succ n ih =>
    cases k with
    | zero => simp [State.loadBytes]
    | succ k =>
      simp only [State.loadBytes, List.getElem_cons_succ, ih]
      congr 1
      omega

theorem State.store_keeps_wf {s : State} {a : Nat} {v : Byte} (ha : a < 4096)
    (h : Memory.wf s.font s.mem = true) : Memory.wf (s.store a v).font (s.store a v).mem = true :=
  Memory.write_keeps_wf ha h

/-- Storing a range that lies in `M` keeps the canonical form. -/
theorem State.storeBytes_keeps_wf {s : State} {a : Nat} {bs : List Byte} (ha : a + bs.length ≤ 4096)
    (h : Memory.wf s.font s.mem = true) :
    Memory.wf (s.storeBytes a bs).font (s.storeBytes a bs).mem = true := by
  induction bs generalizing s a with
  | nil => exact h
  | cons b rest ih =>
    simp only [List.length_cons] at ha
    exact ih (by omega) (State.store_keeps_wf (by omega) h)

/-- The bounds check of rule R55. -/
theorem inMemory_iff (base len : Nat) : inMemory base len = true ↔ len = 0 ∨ base + len ≤ 4096 := by
  rw [inMemory, Bool.or_eq_true, beq_iff_eq, decide_eq_true_eq]

/-! ### The fields a block load leaves -/

@[simp] theorem State.writeBlock_i (s : State) (k : Nat) (bs : List Byte) : (s.writeBlock k bs).i = s.i := by
  induction bs generalizing s k with
  | nil => rfl
  | cons b rest ih => simp only [State.writeBlock, ih, State.writeV_i]
@[simp] theorem State.writeBlock_pc (s : State) (k : Nat) (bs : List Byte) : (s.writeBlock k bs).pc = s.pc := by
  induction bs generalizing s k with
  | nil => rfl
  | cons b rest ih => simp only [State.writeBlock, ih, State.writeV_pc]
@[simp] theorem State.writeBlock_stack (s : State) (k : Nat) (bs : List Byte) : (s.writeBlock k bs).stack = s.stack := by
  induction bs generalizing s k with
  | nil => rfl
  | cons b rest ih => simp only [State.writeBlock, ih, State.writeV_stack]
@[simp] theorem State.writeBlock_sp (s : State) (k : Nat) (bs : List Byte) : (s.writeBlock k bs).sp = s.sp := by
  induction bs generalizing s k with
  | nil => rfl
  | cons b rest ih => simp only [State.writeBlock, ih, State.writeV_sp]
@[simp] theorem State.writeBlock_dt (s : State) (k : Nat) (bs : List Byte) : (s.writeBlock k bs).dt = s.dt := by
  induction bs generalizing s k with
  | nil => rfl
  | cons b rest ih => simp only [State.writeBlock, ih, State.writeV_dt]
@[simp] theorem State.writeBlock_st (s : State) (k : Nat) (bs : List Byte) : (s.writeBlock k bs).st = s.st := by
  induction bs generalizing s k with
  | nil => rfl
  | cons b rest ih => simp only [State.writeBlock, ih, State.writeV_st]
@[simp] theorem State.writeBlock_fb (s : State) (k : Nat) (bs : List Byte) : (s.writeBlock k bs).fb = s.fb := by
  induction bs generalizing s k with
  | nil => rfl
  | cons b rest ih => simp only [State.writeBlock, ih, State.writeV_fb]
@[simp] theorem State.writeBlock_k (s : State) (k : Nat) (bs : List Byte) : (s.writeBlock k bs).k = s.k := by
  induction bs generalizing s k with
  | nil => rfl
  | cons b rest ih => simp only [State.writeBlock, ih, State.writeV_k]
@[simp] theorem State.writeBlock_opc (s : State) (k : Nat) (bs : List Byte) : (s.writeBlock k bs).opc = s.opc := by
  induction bs generalizing s k with
  | nil => rfl
  | cons b rest ih => simp only [State.writeBlock, ih, State.writeV_opc]
@[simp] theorem State.writeBlock_mem (s : State) (k : Nat) (bs : List Byte) : (s.writeBlock k bs).mem = s.mem := by
  induction bs generalizing s k with
  | nil => rfl
  | cons b rest ih => simp only [State.writeBlock, ih, State.writeV_mem]
@[simp] theorem State.writeBlock_font (s : State) (k : Nat) (bs : List Byte) : (s.writeBlock k bs).font = s.font := by
  induction bs generalizing s k with
  | nil => rfl
  | cons b rest ih => simp only [State.writeBlock, ih, State.writeV_font]
@[simp] theorem State.writeBlock_rndSeq (s : State) (k : Nat) (bs : List Byte) : (s.writeBlock k bs).rndSeq = s.rndSeq := by
  induction bs generalizing s k with
  | nil => rfl
  | cons b rest ih => simp only [State.writeBlock, ih, State.writeV_rndSeq]
@[simp] theorem State.writeBlock_draws (s : State) (k : Nat) (bs : List Byte) : (s.writeBlock k bs).draws = s.draws := by
  induction bs generalizing s k with
  | nil => rfl
  | cons b rest ih => simp only [State.writeBlock, ih, State.writeV_draws]
@[simp] theorem State.writeBlock_readStack (s : State) (k : Nat) (bs : List Byte) (e : Fin 16) :
    (s.writeBlock k bs).readStack e = s.readStack e := by simp only [State.readStack, State.writeBlock_stack]
@[simp] theorem State.writeBlock_load (s : State) (k : Nat) (bs : List Byte) (a : Nat) :
    (s.writeBlock k bs).load a = s.load a := by simp only [State.load, State.writeBlock_font, State.writeBlock_mem]

/-- A block written from register `k` up: its registers hold its bytes, every other register reads as before. -/
theorem State.writeBlock_readV (s : State) (k : Nat) (bs : List Byte) (hk : k + bs.length ≤ 16) (r : Nibble) :
    (s.writeBlock k bs).readV r =
      if h : k ≤ r.toNat ∧ r.toNat - k < bs.length then bs[r.toNat - k]'h.2 else s.readV r := by
  induction bs generalizing s k with
  | nil => simp [State.writeBlock]
  | cons b rest ih =>
    simp only [List.length_cons] at hk
    rw [State.writeBlock, ih _ _ (by omega)]
    by_cases hr : r.toNat = k
    · have e : r = BitVec.ofNat 4 k := by rw [← hr]; simp
      have e2 : r.toNat - k = 0 := by omega
      rw [dif_neg (by omega), State.writeV_readV, if_pos e, dif_pos (by simp; omega)]
      simp [e2]
    · have e : ¬ r = BitVec.ofNat 4 k := by
        rintro rfl
        simp only [BitVec.toNat_ofNat] at hr
        omega
      rw [State.writeV_readV, if_neg e]
      by_cases hlt : k ≤ r.toNat
      · have e2 : r.toNat - k = (r.toNat - (k + 1)) + 1 := by omega
        simp [e2, hlt, show k + 1 ≤ r.toNat by omega]
      · rw [dif_neg (by omega), dif_neg (by omega)]

@[simp] theorem State.block_length (s : State) (x : Nibble) : (s.block x).length = x.toNat + 1 := by
  have := x.isLt
  simp only [State.block, blockLength, List.length_take, Vector.length_toList]
  omega

/-- The `k`-th byte of the block V0 to Vx is V[k]. -/
@[simp] theorem State.block_getElem (s : State) (x : Nibble) (k : Nat) (h : k < (s.block x).length) :
    (s.block x)[k] = s.readV (BitVec.ofNat 4 k) := by
  have hx := x.isLt
  have hk : k < 16 := by simp only [State.block_length] at h; omega
  simp only [State.block, List.getElem_take, Vector.getElem_toList, State.readV, BitVec.toNat_ofNat]
  congr 1
  omega

end Sys2Proof.Machine
end

