-- ==== Sys2Proof/Laws/Ops.lean ====
section
/-! SUPPORT. One lemma for each shared operation that says everything it can do: the skip, the flag write, the key test, the
key poll, the draw of a random byte, raising a fault, fetch, and the end of a cycle. -/

namespace Sys2Proof.Machine

/-! ### The skip (R108) -/

/-- A skip moves `PC` by 2 or leaves the state as it is. -/
theorem skipIf_eq (c : Bool) (s : State) : skipIf c s = s.setPc (if c then s.pc + 2 else s.pc) := by
  cases c <;> rfl

/-! ### Flags (R36, R120) -/

/-- A result with its flag: VF holds the flag, the destination (if it is not VF) the result, the others as before. -/
@[simp] theorem State.writeResult_readV (s : State) (x : Nibble) (b : Byte) (flag : Bool) (r : Nibble) :
    (s.writeResult x b flag).readV r = if r = vf then flagByte flag else if r = x then b else s.readV r := by
  simp only [State.writeResult, State.setFlag, State.writeV_readV]

/-- A result with its flag writes registers only. -/
theorem State.writeResult_changes (s : State) (x : Nibble) (b : Byte) (flag : Bool) :
    ∃ w, s.writeResult x b flag = { s with v := w } := ⟨_, rfl⟩

/-! ### Keys (R165 to R167) -/

/-- The key test runs with the key's level when the number is below 16, and faults when it is not. -/
theorem withKey_cases (x : Nibble) (s : State) (use : Bool → State) :
    (∃ h : (s.readV x).toNat < 16, withKey x s use = .next (use (s.k[(s.readV x).toNat]'h))) ∨
      (15 < (s.readV x).toNat ∧ withKey x s use = raise .keyIndexOutOfRange (wordOf (s.readV x)) s) := by
  by_cases h : (s.readV x).toNat < 16
  · exact .inl ⟨h, by rw [withKey, dif_pos h]⟩
  · exact .inr ⟨by omega, by rw [withKey, dif_neg h]⟩

theorem leastPressedFrom_some {n k : Nat} {ks : List Bool} (h : leastPressedFrom n ks = some k) :
    n ≤ k ∧ ks[k - n]? = some true ∧ ∀ j, n ≤ j → j < k → ks[j - n]? = some false := by
  induction ks generalizing n with
  | nil => simp [leastPressedFrom] at h
  | cons p rest ih =>
    simp only [leastPressedFrom] at h
    cases p with
    | true =>
      simp only [if_true, Option.some.injEq] at h
      subst h
      exact ⟨le_refl _, by simp, fun j h1 h2 => by omega⟩
    | false =>
      simp only [Bool.false_eq_true, if_false] at h
      obtain ⟨h1, h2, h3⟩ := ih h
      have e : k - n = (k - (n + 1)) + 1 := by omega
      refine ⟨by omega, by rw [e]; simpa using h2, fun j hj hk => ?_⟩
      by_cases hjn : j = n
      · subst hjn; simp
      · have e' : j - n = (j - (n + 1)) + 1 := by omega
        rw [e']
        simpa using h3 j (by omega) hk

theorem leastPressedFrom_none {n : Nat} {ks : List Bool} (h : leastPressedFrom n ks = none) : ∀ b ∈ ks, b = false := by
  induction ks generalizing n with
  | nil => simp
  | cons p rest ih =>
    simp only [leastPressedFrom] at h
    cases p with
    | true => simp at h
    | false =>
      simp only [Bool.false_eq_true, if_false] at h
      intro b hb
      rcases List.mem_cons.mp hb with rfl | hb
      · rfl
      · exact ih h b hb

/-- The poll answers the least pressed key (R167, D9). -/
theorem State.leastPressed_some {s : State} {k : Nat} (h : s.leastPressed = some k) :
    ∃ hk : k < 16, s.k[k] = true ∧ ∀ j (hj : j < k), s.k[j] = false := by
  obtain ⟨-, h2, h3⟩ := leastPressedFrom_some h
  simp only [Nat.sub_zero, List.getElem?_eq_some_iff, Vector.length_toList, Vector.getElem_toList] at h2
  obtain ⟨hk, hv⟩ := h2
  refine ⟨hk, hv, fun j hj => ?_⟩
  have h4 := h3 j (Nat.zero_le j) hj
  simp only [Nat.sub_zero, List.getElem?_eq_some_iff, Vector.length_toList, Vector.getElem_toList] at h4
  exact h4.2

/-- The poll answers none exactly when no key is pressed. -/
theorem State.leastPressed_none {s : State} (h : s.leastPressed = none) : ∀ j (hj : j < 16), s.k[j] = false := by
  intro j hj
  apply leastPressedFrom_none h
  simp

/-! ### Random input (R97) -/

/-- A draw takes the head of the host's sequence, or a free value when there is none, and nothing but the random input
moves on. -/
theorem State.rnd_cases (s : State) :
    (∃ b rest, s.rndSeq = b :: rest ∧ s.rnd = b ∧ s.advanceRnd = s.setRnd rest s.draws) ∨
      (s.rndSeq = [] ∧ s.rnd = Config.randomByte s.draws ∧ s.advanceRnd = s.setRnd [] (s.draws + 1)) := by
  unfold State.rnd State.advanceRnd
  cases h : s.rndSeq with
  | nil => exact .inr ⟨rfl, rfl, rfl⟩
  | cons b rest => exact .inl ⟨b, rest, rfl, rfl, rfl⟩

/-- Advancing the random input writes the random input only. -/
theorem State.advanceRnd_eq (s : State) : ∃ bytes n, s.advanceRnd = s.setRnd bytes n := by
  rcases s.rnd_cases with ⟨_, rest, -, -, h⟩ | ⟨-, -, h⟩
  · exact ⟨rest, s.draws, h⟩
  · exact ⟨[], s.draws + 1, h⟩

/-! ### Faults (R171, R172, R178) -/

@[simp] theorem Fault.ofCause_cause (c : FaultCause) (r : FaultInfo) (s : State) : (Fault.ofCause c r s).cause = c := by
  cases c <;> rfl

@[simp] theorem Fault.ofCause_info (c : FaultCause) (r : FaultInfo) (s : State) : (Fault.ofCause c r s).info = r := by
  cases c <;> rfl

@[simp] theorem Fault.ofCause_after (c : FaultCause) (r : FaultInfo) (s : State) : (Fault.ofCause c r s).after = s := by
  cases c <;> rfl

/-- A fault is its cause, its report and the state it leaves. -/
theorem Fault.ofCause_eta (f : Fault) : Fault.ofCause f.cause f.info f.after = f := by cases f <;> rfl

/-- A fault raised by a handler leaves the state as the handler found it. -/
theorem raise_eq (c : FaultCause) (value : Word) (s : State) :
    raise c value s = .fault (Fault.ofCause c ⟨c.code, s.pc - 2, s.opc, value⟩ s) := rfl

/-! ### The stages around a handler (R91, R92, R95) -/

/-- Fetch gives the two bytes at `PC`, or nothing when they do not lie in memory. -/
theorem State.fetchWord_cases (s : State) :
    (s.pc.toNat ≤ 0xFFE ∧ s.fetchWord = some (wordOfBytes (s.load s.pc.toNat) (s.load (s.pc.toNat + 1)))) ∨
      (0xFFE < s.pc.toNat ∧ s.fetchWord = none) := by
  by_cases h : inMemory s.pc.toNat 2 = true
  · have h' := (inMemory_iff _ _).mp h
    exact .inl ⟨by omega, by rw [State.fetchWord, if_pos h]⟩
  · have h' := fun hh => h ((inMemory_iff s.pc.toNat 2).mpr hh)
    refine .inr ⟨?_, by rw [State.fetchWord, if_neg h]⟩
    by_contra hn
    exact h' (.inr (by omega))

/-- A timer ticks down to 0 and stays there. -/
@[simp] theorem tickTimer_toNat (t : Byte) : (tickTimer t).toNat = t.toNat - 1 := by
  unfold tickTimer
  split
  · subst_vars; rfl
  · rename_i h
    have h0 : t.toNat ≠ 0 := fun h0 => h (BitVec.eq_of_toNat_eq h0)
    have := t.isLt
    have h1 : (1 : Byte).toNat = 1 := rfl
    rw [BitVec.toNat_sub]
    omega

/-- The end of a cycle ticks the timers of a completed handler and touches nothing else. -/
theorem finishCycle_next {r : Result} {t : State} (h : finishCycle r = .next t) : ∃ u, r = .next u ∧ t = u.tick := by
  cases r with
  | next u => exact ⟨u, rfl, by simpa [finishCycle] using h.symm⟩
  | fault f => simp [finishCycle] at h
  | refused q => simp [finishCycle] at h

end Sys2Proof.Machine
end

