-- ==== Sys2Proof/Laws/Frame.lean ====
section
/-! SUPPORT. The frame of each shape of instruction, and the one form a fault of an instruction can have. -/

namespace Sys2Proof.Machine

/-- Setting `PC` changes `PC` only. -/
theorem setPc_changesOnly (s : State) (w : Word) : ChangesOnly [.pc] s (s.setPc w) := by
  refine ⟨fun p hp => ?_, rfl, rfl, rfl⟩
  cases p <;> simp [SamePart] at *

/-- Setting `I` changes `I` only. -/
theorem setI_changesOnly (s : State) (w : Word) : ChangesOnly [.index] s (s.setI w) := by
  refine ⟨fun p hp => ?_, rfl, rfl, rfl⟩
  cases p <;> simp [SamePart] at *

/-- Writing a register changes that register only. -/
theorem writeV_changesOnly (s : State) (x : Nibble) (b : Byte) : ChangesOnlyRegs (· = x) s (s.writeV x b) := by
  refine ⟨⟨fun p hp => ?_, rfl, rfl, rfl⟩, fun r hr => by simp [hr]⟩
  cases p <;> simp [SamePart] at *

/-- A result with its flag changes the destination and VF only. -/
theorem writeResult_changesOnly (s : State) (x : Nibble) (b : Byte) (flag : Bool) :
    ChangesOnlyRegs (fun r => r = x ∨ r = 0xF) s (s.writeResult x b flag) := by
  refine ⟨⟨fun p hp => ?_, rfl, rfl, rfl⟩, fun r hr => ?_⟩
  · cases p <;> simp [SamePart, State.writeResult, State.setFlag] at *
  · simp only [not_or] at hr
    rw [State.writeResult_readV, if_neg (show ¬ r = vf from hr.2), if_neg hr.1]

/-- Storing bytes changes memory only. -/
theorem storeBytes_changesOnly (s : State) (a : Nat) (bs : List Byte) : ChangesOnly [.memory] s (s.storeBytes a bs) := by
  refine ⟨fun p hp => ?_, by simp, by simp, by simp⟩
  cases p <;> simp [SamePart] at *

/-- A fault of a handler is one raised in the state the handler found, of a cause other than the fetch's (R171, R177). -/
theorem exec_fault_eq {i : Instr} {s : State} {f : Fault} (h : exec i s = .fault f) :
    ∃ c value, c ≠ .fetchOutOfBounds ∧ f = Fault.ofCause c ⟨c.code, s.pc - 2, s.opc, value⟩ s := by
  have key : ∀ (c : FaultCause) (v : Word), c ≠ .fetchOutOfBounds → raise c v s = .fault f →
      ∃ c value, c ≠ .fetchOutOfBounds ∧ f = Fault.ofCause c ⟨c.code, s.pc - 2, s.opc, value⟩ s := by
    intro c v hc hr
    rw [raise_eq, Host.Outcome.fault.injEq] at hr
    exact ⟨c, v, hc, hr.symm⟩
  cases i with
  | ret =>
    simp only [exec, execRet] at h
    split at h
    · exact key _ _ (by decide) h
    · split at h <;> cases h
  | call nnn =>
    simp only [exec, execCall] at h
    split at h
    · exact key _ _ (by decide) h
    · split at h <;> cases h
  | drw x y n =>
    simp only [exec, execDrw] at h
    split at h
    · cases h
    · exact key _ _ (by decide) h
  | skp x =>
    simp only [exec, execSkp, withKey] at h
    split at h
    · cases h
    · exact key _ _ (by decide) h
  | sknp x =>
    simp only [exec, execSknp, withKey] at h
    split at h
    · cases h
    · exact key _ _ (by decide) h
  | ldVxK x =>
    simp only [exec, execLdVxK] at h
    split at h <;> cases h
  | ldB x =>
    simp only [exec, execLdB] at h
    split at h
    · cases h
    · exact key _ _ (by decide) h
  | storeRegs x =>
    simp only [exec, execStoreRegs] at h
    split at h
    · cases h
    · exact key _ _ (by decide) h
  | loadRegs x =>
    simp only [exec, execLoadRegs] at h
    split at h
    · cases h
    · exact key _ _ (by decide) h
  | _ => cases h

end Sys2Proof.Machine
end

