-- ==== Sys2Proof/Laws/PerInstr.lean ====
section
/-! SUPPORT. Statements for all instructions, one lemma for each constructor. -/

namespace Sys2Proof.Laws.EncodedHighNibble

/-- The first key of the decoder (R74), read off the canonical pattern of each row (R81). -/
def expected : Instr → Nibble
  | .cls | .ret => 0x0
  | .jp _ => 0x1
  | .call _ => 0x2
  | .seImm _ _ => 0x3
  | .sneImm _ _ => 0x4
  | .seReg _ _ => 0x5
  | .ldImm _ _ => 0x6
  | .addImm _ _ => 0x7
  | .ldReg _ _ | .orReg _ _ | .andReg _ _ | .xorReg _ _ | .addReg _ _ | .subReg _ _ | .shr _ | .subn _ _ | .shl _ => 0x8
  | .sneReg _ _ => 0x9
  | .ldI _ => 0xA
  | .jpV0 _ => 0xB
  | .rnd _ _ => 0xC
  | .drw _ _ _ => 0xD
  | .skp _ | .sknp _ => 0xE
  | .ldVxDt _ | .ldVxK _ | .ldDtVx _ | .ldStVx _ | .addI _ | .ldF _ | .ldB _ | .storeRegs _ | .loadRegs _ => 0xF
  | .nop word => word.extractLsb' 12 4

/-- The encoded word of an instruction carries the first key of its row in bits 15:12 (R74, R81). -/
def Statement (i : Instr) : Prop := opField (encode i) = expected i

theorem cls : Statement .cls := by
  simp only [Statement, encode, expected]; decide
theorem ret : Statement .ret := by
  simp only [Statement, encode, expected]; decide
theorem jp (nnn : Addr) : Statement (.jp nnn) := opField_addr _ _
theorem call (nnn : Addr) : Statement (.call nnn) := opField_addr _ _
theorem seImm (x : Nibble) (kk : Byte) : Statement (.seImm x kk) := opField_byte _ _ _
theorem sneImm (x : Nibble) (kk : Byte) : Statement (.sneImm x kk) := opField_byte _ _ _
theorem seReg (x y : Nibble) : Statement (.seReg x y) := opField_nibbles _ _ _ _
theorem ldImm (x : Nibble) (kk : Byte) : Statement (.ldImm x kk) := opField_byte _ _ _
theorem addImm (x : Nibble) (kk : Byte) : Statement (.addImm x kk) := opField_byte _ _ _
theorem ldReg (x y : Nibble) : Statement (.ldReg x y) := opField_nibbles _ _ _ _
theorem orReg (x y : Nibble) : Statement (.orReg x y) := opField_nibbles _ _ _ _
theorem andReg (x y : Nibble) : Statement (.andReg x y) := opField_nibbles _ _ _ _
theorem xorReg (x y : Nibble) : Statement (.xorReg x y) := opField_nibbles _ _ _ _
theorem addReg (x y : Nibble) : Statement (.addReg x y) := opField_nibbles _ _ _ _
theorem subReg (x y : Nibble) : Statement (.subReg x y) := opField_nibbles _ _ _ _
theorem shr (x : Nibble) : Statement (.shr x) := opField_nibbles _ _ _ _
theorem subn (x y : Nibble) : Statement (.subn x y) := opField_nibbles _ _ _ _
theorem shl (x : Nibble) : Statement (.shl x) := opField_nibbles _ _ _ _
theorem sneReg (x y : Nibble) : Statement (.sneReg x y) := opField_nibbles _ _ _ _
theorem ldI (nnn : Addr) : Statement (.ldI nnn) := opField_addr _ _
theorem jpV0 (nnn : Addr) : Statement (.jpV0 nnn) := opField_addr _ _
theorem rnd (x : Nibble) (kk : Byte) : Statement (.rnd x kk) := opField_byte _ _ _
theorem drw (x y n : Nibble) : Statement (.drw x y n) := opField_nibbles _ _ _ _
theorem skp (x : Nibble) : Statement (.skp x) := opField_byte _ _ _
theorem sknp (x : Nibble) : Statement (.sknp x) := opField_byte _ _ _
theorem ldVxDt (x : Nibble) : Statement (.ldVxDt x) := opField_byte _ _ _
theorem ldVxK (x : Nibble) : Statement (.ldVxK x) := opField_byte _ _ _
theorem ldDtVx (x : Nibble) : Statement (.ldDtVx x) := opField_byte _ _ _
theorem ldStVx (x : Nibble) : Statement (.ldStVx x) := opField_byte _ _ _
theorem addI (x : Nibble) : Statement (.addI x) := opField_byte _ _ _
theorem ldF (x : Nibble) : Statement (.ldF x) := opField_byte _ _ _
theorem ldB (x : Nibble) : Statement (.ldB x) := opField_byte _ _ _
theorem storeRegs (x : Nibble) : Statement (.storeRegs x) := opField_byte _ _ _
theorem loadRegs (x : Nibble) : Statement (.loadRegs x) := opField_byte _ _ _
theorem nop (word : Word) : Statement (.nop word) := rfl

end Sys2Proof.Laws.EncodedHighNibble
end

