-- ==== Sys2Proof/Tests/Slice0.lean ====
section
/-! SUPPORT. Tests of one step or one decode each; the expected results are those of spec/95_test_vectors.md (the id of the
vector stands in the comment), which were worked out by hand from the rules. Then, for every statement with hypotheses, a
concrete state and operands that meet them. -/

namespace Sys2Proof.Tests

open Sys2Proof.Machine

-- One theorem after another: side by side, the kernel evaluations below would each hold a thread and its stack.
set_option Elab.async false

/-! ### Helpers -/

/-- The outcome is a next state, and the state passes the check. -/
def onNext (r : Result) (check : State → Bool) : Bool :=
  match r with
  | .next s => check s
  | .fault _ => false
  | .refused _ => false

/-- The outcome is a fault, and it passes the check. -/
def onFault (r : Result) (check : Fault → Bool) : Bool :=
  match r with
  | .next _ => false
  | .fault f => check f
  | .refused _ => false

/-- The outcome is a refusal. -/
def isRefused (r : Result) : Bool :=
  match r with
  | .next _ => false
  | .fault _ => false
  | .refused _ => true

theorem next_of_onNext {r : Result} {check : State → Bool} (h : onNext r check = true) :
    ∃ t, r = .next t ∧ check t = true := by
  cases r with
  | next t => exact ⟨t, rfl, h⟩
  | fault f => cases h
  | refused r => cases h

theorem fault_of_onFault {r : Result} {check : Fault → Bool} (h : onFault r check = true) :
    ∃ f, r = .fault f ∧ check f = true := by
  cases r with
  | next t => cases h
  | fault f => exact ⟨f, rfl, h⟩
  | refused r => cases h

theorem refused_of_isRefused {r : Result} (h : isRefused r = true) : ∃ x, r = .refused x := by
  cases r with
  | next t => cases h
  | fault f => cases h
  | refused x => exact ⟨x, rfl⟩

/-- One cycle with the word at `PC`. -/
def cycleOf (w : Word) (s : State) : Result := step (s.withFetchWord 16 w.toNat)

/-- The reset state with registers x and y set. -/
def withRegs (x : Nibble) (a : Byte) (y : Nibble) (b : Byte) : State := (State.reset.writeV x a).writeV y b

/-- The reset state with one key pressed. -/
def withKeyDown (j : Nat) (h : j < 16) : State := State.reset.setKeys (State.reset.k.set j true h)

/-- The bytes of a state at an address. -/
def bytesAt (s : State) (a n : Nat) : List Byte := s.loadBytes a n

/-! ### Well-formedness: terms that stand for no word are refused -/

theorem test_nop_of_clear_refused : (Instr.nop 0x00E0).wellFormed = false := by decide
theorem test_nop_of_return_refused : (Instr.nop 0x012E).wellFormed = false := by decide
theorem test_nop_of_immediate_refused : (Instr.nop 0x6005).wellFormed = false := by decide
theorem test_nop_of_alu_refused : (Instr.nop 0x812E).wellFormed = false := by decide
theorem test_nop_of_key_refused : (Instr.nop 0xE10E).wellFormed = false := by decide
theorem test_nop_of_timer_refused : (Instr.nop 0xF107).wellFormed = false := by decide
theorem test_nop_of_unmapped_accepted : (Instr.nop 0x8129).wellFormed = true := by decide

/-! ### Decode: one word per constructor, its bits written out from the encodings of spec/30_encoding.md -/

theorem test_decode_cls : decodeWord 0b0000_0000_1110_0000#16 = .cls := by decide
theorem test_decode_ret : decodeWord 0b0000_0000_1110_1110#16 = .ret := by decide
theorem test_decode_jp : decodeWord 0b0001_1010_1011_1100#16 = .jp 0xABC := by decide
theorem test_decode_call : decodeWord 0b0010_0010_0000_1010#16 = .call 0x20A := by decide
theorem test_decode_seImm : decodeWord 0b0011_1010_0000_0101#16 = .seImm 0xA 0x05 := by decide
theorem test_decode_sneImm : decodeWord 0b0100_1010_0000_0101#16 = .sneImm 0xA 0x05 := by decide
theorem test_decode_seReg : decodeWord 0b0101_0001_0010_0000#16 = .seReg 1 2 := by decide
theorem test_decode_ldImm : decodeWord 0b0110_0011_1000_0001#16 = .ldImm 3 0x81 := by decide
theorem test_decode_addImm : decodeWord 0b0111_1111_0000_0010#16 = .addImm 0xF 0x02 := by decide
theorem test_decode_ldReg : decodeWord 0b1000_0001_0010_0000#16 = .ldReg 1 2 := by decide
theorem test_decode_orReg : decodeWord 0b1000_0001_0010_0001#16 = .orReg 1 2 := by decide
theorem test_decode_andReg : decodeWord 0b1000_0001_0010_0010#16 = .andReg 1 2 := by decide
theorem test_decode_xorReg : decodeWord 0b1000_0001_0010_0011#16 = .xorReg 1 2 := by decide
theorem test_decode_addReg : decodeWord 0b1000_0001_0010_0100#16 = .addReg 1 2 := by decide
theorem test_decode_subReg : decodeWord 0b1000_0001_0010_0101#16 = .subReg 1 2 := by decide
theorem test_decode_shr : decodeWord 0b1000_0001_0010_0110#16 = .shr 1 := by decide
theorem test_decode_subn : decodeWord 0b1000_0001_0010_0111#16 = .subn 1 2 := by decide
theorem test_decode_shl : decodeWord 0b1000_0001_0010_1110#16 = .shl 1 := by decide
theorem test_decode_sneReg : decodeWord 0b1001_0001_0010_0000#16 = .sneReg 1 2 := by decide
theorem test_decode_ldI : decodeWord 0b1010_0011_0000_0000#16 = .ldI 0x300 := by decide
theorem test_decode_jpV0 : decodeWord 0b1011_0001_0010_0011#16 = .jpV0 0x123 := by decide
theorem test_decode_rnd : decodeWord 0b1100_0001_0000_1111#16 = .rnd 1 0x0F := by decide
theorem test_decode_drw : decodeWord 0b1101_0101_1010_0111#16 = .drw 5 0xA 7 := by decide
theorem test_decode_skp : decodeWord 0b1110_0001_1001_1110#16 = .skp 1 := by decide
theorem test_decode_sknp : decodeWord 0b1110_0001_1010_0001#16 = .sknp 1 := by decide
theorem test_decode_ldVxDt : decodeWord 0b1111_0001_0000_0111#16 = .ldVxDt 1 := by decide
theorem test_decode_ldVxK : decodeWord 0b1111_0010_0000_1010#16 = .ldVxK 2 := by decide
theorem test_decode_ldDtVx : decodeWord 0b1111_0100_0001_0101#16 = .ldDtVx 4 := by decide
theorem test_decode_ldStVx : decodeWord 0b1111_0010_0001_1000#16 = .ldStVx 2 := by decide
theorem test_decode_addI : decodeWord 0b1111_0001_0001_1110#16 = .addI 1 := by decide
theorem test_decode_ldF : decodeWord 0b1111_0000_0010_1001#16 = .ldF 0 := by decide
theorem test_decode_ldB : decodeWord 0b1111_0011_0011_0011#16 = .ldB 3 := by decide
theorem test_decode_storeRegs : decodeWord 0b1111_0001_0101_0101#16 = .storeRegs 1 := by decide
theorem test_decode_loadRegs : decodeWord 0b1111_0010_0110_0101#16 = .loadRegs 2 := by decide
theorem test_decode_nop : decodeWord 0b1000_0001_0010_1000#16 = .nop 0x8128 := by decide

/-- The bytes of memory are read high byte first (S2). -/
theorem test_decode_bytes : decodeBytes [0x60, 0x05, 0x61] = .ok (.ldImm 0 0x05, [0x61]) := by decide

theorem test_encode_shift : encode (.shl 1) = 0x810E := by decide

theorem test_table_word : decodeTableWord 16 0xD5A7 = some (.drw 5 0xA 7) := by decide

/-! ### Results, one cycle each -/

/-- T-DRW-14. -/
theorem test_cls_clears :
    onNext (cycleOf 0x00E0 ({ State.reset with fb := toggleCell State.reset.fb 3 5, dt := 1 })) (fun t => !(cellAt t.fb 3 5) && t.pc == 0x202 && t.dt == 0) = true := by decide +kernel

/-- The cycle of the reset state with no ROM: 0x0000 is a clear display (R210). -/
theorem test_reset_runs_clear :
    onNext (step State.reset) (fun t => t.pc == 0x202 && t.opc == 0) = true := by decide +kernel

/-- T-FLOW-8. -/
theorem test_ret_pops :
    onNext (cycleOf 0x00EE (({ State.reset with sp := 1 }.setPc 0x300).writeStack 0 0x206)) (fun t => t.sp == 0 && t.pc == 0x206 && t.readStack 0 == 0x206) = true := by decide +kernel

/-- T-FLOW-9, T-TMR-9. -/
theorem test_ret_underflow :
    onFault (cycleOf 0x00EE ({ State.reset with dt := 5 })) (fun f => f.info == { code := 5, fpc := 0x200, opcode := 0x00EE, value := 0 } && f.after.pc == 0x202 && f.after.dt == 5) = true := by decide +kernel

/-- T-FLOW-2. -/
theorem test_jp_sets_pc :
    onNext (cycleOf 0x1ABC (State.reset)) (fun t => t.pc == 0xABC) = true := by decide +kernel

/-- T-FLOW-22, first cycle. -/
theorem test_jp_to_odd_address :
    onNext (cycleOf 0x1201 (State.reset)) (fun t => t.pc == 0x201) = true := by decide +kernel

/-- T-FLOW-5. -/
theorem test_call_pushes :
    onNext (cycleOf 0x220A (State.reset.setPc 0x204)) (fun t => t.readStack 0 == 0x206 && t.sp == 1 && t.pc == 0x20A) = true := by decide +kernel

/-- T-FLOW-7. -/
theorem test_call_overflow :
    onFault (cycleOf 0x2300 ({ State.reset with sp := 16 })) (fun f => f.info == { code := 4, fpc := 0x200, opcode := 0x2300, value := 16 } && f.after.pc == 0x202 && f.after.sp == 16) = true := by decide +kernel

/-- T-FLOW-10. -/
theorem test_se_imm_taken :
    onNext (cycleOf 0x3A05 (State.reset.writeV 0xA 5)) (fun t => t.pc == 0x204) = true := by decide +kernel

/-- T-FLOW-11. -/
theorem test_se_imm_not_taken :
    onNext (cycleOf 0x3A05 (State.reset.writeV 0xA 6)) (fun t => t.pc == 0x202) = true := by decide +kernel

/-- T-FLOW-12. -/
theorem test_sne_imm_not_taken :
    onNext (cycleOf 0x4A05 (State.reset.writeV 0xA 5)) (fun t => t.pc == 0x202) = true := by decide +kernel

/-- T-FLOW-13. -/
theorem test_sne_imm_taken :
    onNext (cycleOf 0x4A05 (State.reset.writeV 0xA 6)) (fun t => t.pc == 0x204) = true := by decide +kernel

/-- T-FLOW-14. -/
theorem test_se_reg_taken :
    onNext (cycleOf 0x5120 (withRegs 1 9 2 9)) (fun t => t.pc == 0x204) = true := by decide +kernel

/-- T-FLOW-15. -/
theorem test_se_reg_not_taken :
    onNext (cycleOf 0x5120 (withRegs 1 9 2 8)) (fun t => t.pc == 0x202) = true := by decide +kernel

/-- T-FLOW-17. -/
theorem test_sne_reg_taken :
    onNext (cycleOf 0x9120 (withRegs 1 9 2 8)) (fun t => t.pc == 0x204) = true := by decide +kernel

/-- T-FLOW-18. -/
theorem test_sne_reg_not_taken :
    onNext (cycleOf 0x9120 (withRegs 1 9 2 9)) (fun t => t.pc == 0x202) = true := by decide +kernel

/-- T-FLOW-19. -/
theorem test_jp_v0_adds :
    onNext (cycleOf 0xB300 (State.reset.writeV 0 0x10)) (fun t => t.pc == 0x310) = true := by decide +kernel

/-- T-FLOW-20. -/
theorem test_jp_v0_not_reduced :
    onNext (cycleOf 0xBFFF (State.reset.writeV 0 2)) (fun t => t.pc == 0x1001) = true := by decide +kernel

/-- T-FLOW-1. -/
theorem test_nop_advances :
    onNext (cycleOf 0x8129 ({ State.reset with dt := 2 }.writeV 1 7)) (fun t => t.pc == 0x202 && t.readV 1 == 7 && t.dt == 1 && t.opc == 0x8129) = true := by decide +kernel

/-- T-ALU-1. -/
theorem test_ld_imm :
    onNext (cycleOf 0x6005 (State.reset)) (fun t => t.readV 0 == 5 && t.pc == 0x202) = true := by decide +kernel

/-- T-ALU-2. -/
theorem test_add_imm_wraps :
    onNext (cycleOf 0x7001 (State.reset.writeV 0 0xFF)) (fun t => t.readV 0 == 0 && t.readV 0xF == 0) = true := by decide +kernel

/-- T-ALU-3. -/
theorem test_add_imm_to_vf :
    onNext (cycleOf 0x7F02 (State.reset.writeV 0xF 1)) (fun t => t.readV 0xF == 3) = true := by decide +kernel

/-- T-ALU-4. -/
theorem test_ld_reg :
    onNext (cycleOf 0x8120 (State.reset.writeV 2 0x7E)) (fun t => t.readV 1 == 0x7E && t.readV 2 == 0x7E) = true := by decide +kernel

/-- T-ALU-5. -/
theorem test_or_keeps_vf :
    onNext (cycleOf 0x8121 ((withRegs 1 0x0F 2 0xF0).writeV 0xF 1)) (fun t => t.readV 1 == 0xFF && t.readV 0xF == 1) = true := by decide +kernel

/-- T-ALU-6. -/
theorem test_and_keeps_vf :
    onNext (cycleOf 0x8122 ((withRegs 1 0x3C 2 0x0F).writeV 0xF 1)) (fun t => t.readV 1 == 0x0C && t.readV 0xF == 1) = true := by decide +kernel

/-- T-ALU-7. -/
theorem test_xor_same :
    onNext (cycleOf 0x8113 (withRegs 1 0x5A 0xF 1)) (fun t => t.readV 1 == 0 && t.readV 0xF == 1) = true := by decide +kernel

/-- T-ALU-8. -/
theorem test_add_carry :
    onNext (cycleOf 0x8124 (withRegs 1 0xFF 2 1)) (fun t => t.readV 1 == 0 && t.readV 0xF == 1) = true := by decide +kernel

/-- T-ALU-18. -/
theorem test_add_flag_last :
    onNext (cycleOf 0x8F14 (withRegs 0xF 0xF0 1 0x20)) (fun t => t.readV 0xF == 1) = true := by decide +kernel

/-- T-ALU-10. -/
theorem test_sub_equal :
    onNext (cycleOf 0x8125 ((withRegs 1 0x42 2 0x42).writeV 0xF 1)) (fun t => t.readV 1 == 0 && t.readV 0xF == 0) = true := by decide +kernel

/-- T-ALU-12. -/
theorem test_sub_no_borrow :
    onNext (cycleOf 0x8125 (withRegs 1 0x10 2 0x01)) (fun t => t.readV 1 == 0x0F && t.readV 0xF == 1) = true := by decide +kernel

/-- T-ALU-13. -/
theorem test_shr_ignores_vy :
    onNext (cycleOf 0x8126 (withRegs 1 0x05 2 0xAA)) (fun t => t.readV 1 == 2 && t.readV 0xF == 1 && t.readV 2 == 0xAA) = true := by decide +kernel

/-- T-ALU-20. -/
theorem test_shr_of_vf :
    onNext (cycleOf 0x8F06 (State.reset.writeV 0xF 2)) (fun t => t.readV 0xF == 0) = true := by decide +kernel

/-- T-ALU-14. -/
theorem test_subn :
    onNext (cycleOf 0x8127 (withRegs 1 0x01 2 0x10)) (fun t => t.readV 1 == 0x0F && t.readV 0xF == 1) = true := by decide +kernel

/-- T-ALU-16. -/
theorem test_subn_borrow :
    onNext (cycleOf 0x8127 (withRegs 1 0x01 2 0x00)) (fun t => t.readV 1 == 0xFF && t.readV 0xF == 0) = true := by decide +kernel

/-- T-ALU-17. -/
theorem test_shl_ignores_vy :
    onNext (cycleOf 0x812E (withRegs 1 0x81 2 0xAA)) (fun t => t.readV 1 == 2 && t.readV 0xF == 1 && t.readV 2 == 0xAA) = true := by decide +kernel

/-- T-MEM-1. -/
theorem test_ld_i :
    onNext (cycleOf 0xA300 (State.reset.setI 0xFFFF)) (fun t => t.i == 0x300) = true := by decide +kernel

/-- T-MEM-3. -/
theorem test_add_i_past_memory :
    onNext (cycleOf 0xF11E ((withRegs 1 1 0xF 0).setI 0x0FFF)) (fun t => t.i == 0x1000 && t.readV 0xF == 0) = true := by decide +kernel

/-- T-MEM-4. -/
theorem test_add_i_wraps :
    onNext (cycleOf 0xF11E ((withRegs 1 0x20 0xF 0).setI 0xFFF0)) (fun t => t.i == 0x10) = true := by decide +kernel

/-- T-MEM-5. -/
theorem test_ld_f_glyph :
    onNext (cycleOf 0xF029 (State.reset.writeV 0 0x0A)) (fun t => t.i == 0x82) = true := by decide +kernel

/-- T-MEM-7. -/
theorem test_ld_f_whole_byte :
    onNext (cycleOf 0xF029 (State.reset.writeV 0 0xFF)) (fun t => t.i == 0x54B) = true := by decide +kernel

/-- T-MEM-11. -/
theorem test_bcd_last_base :
    onNext (cycleOf 0xF333 ((State.reset.writeV 3 0xC7).setI 0xFFD)) (fun t => bytesAt t 0xFFD 3 == [1, 9, 9]) = true := by decide +kernel

/-- T-MEM-12. -/
theorem test_bcd_faults :
    onFault (cycleOf 0xF033 ((State.reset.writeV 0 7).setI 0xFFE)) (fun f => f.info == { code := 3, fpc := 0x200, opcode := 0xF033, value := 0xFFE } && bytesAt f.after 0xFFE 2 == [0, 0]) = true := by decide +kernel

/-- T-MEM-13. -/
theorem test_store_regs :
    onNext (cycleOf 0xF155 (((withRegs 0 0xFF 1 0x81).writeV 2 0x55).setI 0x300)) (fun t => bytesAt t 0x300 3 == [0xFF, 0x81, 0] && t.i == 0x300) = true := by decide +kernel

/-- T-MEM-15. -/
theorem test_store_regs_faults :
    onFault (cycleOf 0xF155 ((withRegs 0 0xAB 1 0xCD).setI 0xFFF)) (fun f => f.info.code == 3 && f.info.value == 0xFFF && f.after.load 0xFFF == 0) = true := by decide +kernel

/-- T-MEM-19. -/
theorem test_load_regs_font :
    onNext (cycleOf 0xF465 (State.reset.setI 0x50)) (fun t => t.v.toList.take 5 == [0xF0, 0x90, 0x90, 0x90, 0xF0] && t.i == 0x50) = true := by decide +kernel

/-- T-MEM-18. -/
theorem test_load_regs_faults :
    onFault (cycleOf 0xF165 (((withRegs 0 1 1 2).setI 0xFFF).store 0xFFF 0x5A)) (fun f => f.info.code == 2 && f.info.value == 0xFFF && f.after.readV 0 == 1 && f.after.readV 1 == 2) = true := by decide +kernel

/-- T-DRW-4. -/
theorem test_draw_clips :
    onNext (cycleOf 0xD011 (((withRegs 0 60 1 0).setI 0x300).store 0x300 0xFF)) (fun t => cellAt t.fb 0 60 && cellAt t.fb 0 63 && !(cellAt t.fb 0 0) && !(cellAt t.fb 0 59) && t.readV 0xF == 0) = true := by decide +kernel

/-- T-DRW-7. -/
theorem test_draw_collides :
    onNext (cycleOf 0xD011 ({ State.reset with fb := toggleCell State.reset.fb 0 1, i := 0x300 }.store 0x300 0xC0)) (fun t => cellAt t.fb 0 0 && !(cellAt t.fb 0 1) && t.readV 0xF == 1) = true := by decide +kernel

/-- T-TMR-5. -/
theorem test_read_delay :
    onNext (cycleOf 0xF107 ({ State.reset with dt := 2 })) (fun t => t.readV 1 == 2 && t.dt == 1) = true := by decide +kernel

/-- T-TMR-1. -/
theorem test_set_delay :
    onNext (cycleOf 0xF015 (State.reset.writeV 0 3)) (fun t => t.dt == 2) = true := by decide +kernel

/-- T-TMR-7. -/
theorem test_set_sound :
    onNext (cycleOf 0xF218 (State.reset.writeV 2 0x10)) (fun t => t.st == 0x0F && t.dt == 0) = true := by decide +kernel

/-- T-RND-1. -/
theorem test_rnd_masks :
    onNext (cycleWith 0xA7 (State.reset.withFetchWord 16 0xC10F)) (fun t => t.readV 1 == 0x07 && t.rndSeq == []) = true := by decide +kernel

/-- T-KEY-1. -/
theorem test_skp_taken :
    onNext (cycleOf 0xE29E ((withKeyDown 7 (by decide)).writeV 2 7)) (fun t => t.pc == 0x204) = true := by decide +kernel

/-- T-KEY-5. -/
theorem test_skp_faults :
    onFault (cycleOf 0xE29E (State.reset.writeV 2 0x10)) (fun f => f.info == { code := 6, fpc := 0x200, opcode := 0xE29E, value := 0x10 } && f.after.pc == 0x202) = true := by decide +kernel

/-- T-KEY-3. -/
theorem test_sknp_taken :
    onNext (cycleOf 0xE2A1 ((withKeyDown 8 (by decide)).writeV 2 7)) (fun t => t.pc == 0x204) = true := by decide +kernel

/-- T-KEY-6. -/
theorem test_sknp_not_masked :
    onFault (cycleOf 0xE2A1 ((withKeyDown 7 (by decide)).writeV 2 0x17)) (fun f => f.info.code == 6 && f.info.value == 0x17) = true := by decide +kernel

/-- T-KEY-7. -/
theorem test_key_wait_polls :
    onNext (cycleOf 0xF20A ({ State.reset with dt := 3, pc := 0x206 })) (fun t => t.pc == 0x206 && t.dt == 2 && t.readV 2 == 0) = true := by decide +kernel

/-- T-KEY-9. -/
theorem test_key_wait_least :
    onNext (cycleOf 0xF20A (((withKeyDown 9 (by decide)).setKeys (((withKeyDown 9 (by decide)).k.set 7 true).set 12 true)).setPc 0x206)) (fun t => t.readV 2 == 7 && t.pc == 0x208) = true := by decide +kernel

/-- T-FLT-1. -/
theorem test_last_fetch :
    onNext (cycleOf 0x6001 (State.reset.setPc 0xFFE)) (fun t => t.readV 0 == 1 && t.pc == 0x1000) = true := by decide +kernel

/-- T-FLT-2. -/
theorem test_fetch_faults :
    onFault (step { State.reset with pc := 0x1000, opc := 0x6001 }) (fun f => f.info == { code := 1, fpc := 0x1000, opcode := 0x6001, value := 0x1000 } && f.after.pc == 0x1000) = true := by decide +kernel

/-- T-TMR-4, second cycle. -/
theorem test_sound_ticks :
    onNext (cycleOf 0x6000 ({ State.reset with dt := 1, st := 0 })) (fun t => t.dt == 0 && t.st == 0) = true := by decide +kernel

/-- S2, the image of P1 in place. -/
theorem test_rom_loaded :
    (match State.reset.loadRom [0x60, 0x05, 0x61, 0x0A, 0x80, 0x14] with
      | some s => bytesAt s 0x1FF 8 == [0, 0x60, 0x05, 0x61, 0x0A, 0x80, 0x14, 0] && s.fetchWord == some 0x6005
      | none => false) = true := by decide +kernel

/-! ### Witnesses: what meets the hypotheses of the statements -/

theorem witness_DecodeOfEncodeIsIdentity :
    Instr.cls.wellFormed = true ∧ (Instr.nop 0xFFFF).wellFormed = true := by decide

/-- One word on each line of R82's list. -/
theorem witness_NoOpWordsAreExactlyTheListed :
    decodeWord 0x0001 = .nop 0x0001 ∧ decodeWord 0x8008 = .nop 0x8008 ∧ decodeWord 0xE000 = .nop 0xE000 ∧
      decodeWord 0xF000 = .nop 0xF000 := by decide

/-- The last place a word can be fetched from. -/
theorem witness_StepRunsDecodedInstruction_next :
    ({ State.reset with pc := 0xFFE } : State).pc.toNat ≤ 0xFFE ∧
      ∃ t, exec (decodeWord 0x0000) { State.reset with opc := 0x0000, pc := 0x1000 } = .next t := ⟨by decide, (next_of_onNext (check := fun _ => true) (by decide +kernel)).imp fun _ h => h.1⟩

theorem witness_StepRunsDecodedInstruction_fault :
    ∃ f, exec (decodeWord 0x00EE) { State.reset with opc := 0x00EE, pc := 0x1000 } = .fault f := (fault_of_onFault (check := fun _ => true) (by decide +kernel)).imp fun _ h => h.1

theorem witness_StepRunsDecodedInstruction_refused :
    ∃ r, exec (decodeWord 0x00EE) { State.reset with opc := 0x00EE, pc := 0x1000, sp := 17 } = .refused r := refused_of_isRefused (by decide +kernel)

theorem witness_FetchPastMemoryFaults :
    0xFFE < ({ State.reset with pc := 0xFFF } : State).pc.toNat := by decide

theorem witness_TimersCountDown :
    ∃ t, step ({ State.reset with dt := 1, st := 0 } : State) = .next t ∧
      ({ State.reset with dt := 1, st := 0 } : State).fetchWord = some 0 ∧ (∀ x, decodeWord 0 ≠ .ldDtVx x) ∧ ∀ x, decodeWord 0 ≠ .ldStVx x := (next_of_onNext (check := fun _ => true) (by decide +kernel)).imp fun _ h =>
    ⟨h.1, by decide +kernel, fun _ h => Instr.noConfusion h, fun _ h => Instr.noConfusion h⟩

theorem witness_InstructionsFaultExactlyByTheTable :
    ({ State.reset with sp := 16 } : State).sp.toNat ≤ 16 ∧
      faultTable (.call 0x300) { State.reset with sp := 16 } = some (.stackOverflow, 16) ∧
      faultTable .ret { State.reset with sp := 16 } = none := by decide +kernel

theorem witness_FaultLeavesStateAsTheSpecSays_fetch :
    ∃ f, step { State.reset with pc := 0xFFF } = .fault f := (fault_of_onFault (check := fun _ => true) (by decide +kernel)).imp fun _ h => h.1

theorem witness_FaultLeavesStateAsTheSpecSays_execute :
    ∃ f, step (State.reset.withFetchWord 16 0x00EE) = .fault f := (fault_of_onFault (check := fun _ => true) (by decide +kernel)).imp fun _ h => h.1

theorem witness_HostMayContinueAfterFault_fetch :
    (∃ f, step { State.reset with pc := 0xFFF } = .fault f) ∧ 0xFFE < ({ State.reset with pc := 0xFFF } : State).pc.toNat := ⟨(fault_of_onFault (check := fun _ => true) (by decide +kernel)).imp fun _ h => h.1, by decide⟩

theorem witness_HostMayContinueAfterFault_execute :
    (∃ f, step ((State.reset.setPc 0xFFC).withFetchWord 16 0x00EE) = .fault f) ∧
      ((State.reset.setPc 0xFFC).withFetchWord 16 0x00EE).pc.toNat ≤ 0xFFC := ⟨(fault_of_onFault (check := fun _ => true) (by decide +kernel)).imp fun _ h => h.1, by decide +kernel⟩

theorem reset_meets_invariant : State.reset.Inv :=
  ⟨by decide, by decide +kernel, by decide, by decide⟩

theorem witness_NoStepIsRefusedUnderInvariant :
    State.reset.Inv := reset_meets_invariant

theorem witness_StepKeepsInvariant_next :
    State.reset.Inv ∧ ∃ t, step State.reset = .next t := ⟨reset_meets_invariant, (next_of_onNext (check := fun _ => true) (by decide +kernel)).imp fun _ h => h.1⟩

/-- The greatest `PC` of the invariant. -/
theorem witness_StepKeepsInvariant_fault :
    (State.reset.setPc 0x10FE).Inv ∧ ∃ f, step (State.reset.setPc 0x10FE) = .fault f := ⟨⟨by decide, by decide +kernel, by decide, by decide⟩,
    (fault_of_onFault (check := fun _ => true) (by decide +kernel)).imp fun _ h => h.1⟩

theorem witness_InvariantHoldsAlongEveryRun :
    ∃ s, launchState Config.defaultFont [0x12, 0x00] State.reset.k = some s := ⟨_, rfl⟩

/-- The longest image the loader takes, and the shortest it refuses. -/
theorem witness_LoaderPlacesImage :
    (List.replicate 3584 (0 : Byte)).length ≤ 3584 ∧ 3584 < (List.replicate 3585 (0 : Byte)).length ∧
      0 < (List.replicate 3584 (0 : Byte)).length := by simp only [List.length_replicate]; decide

theorem witness_PresentedByteIsUsedOnlyByRnd :
    State.reset.rndSeq = [] ∧ ∀ w, State.reset.fetchWord = some w → ∀ x kk, decodeWord w ≠ .rnd x kk := ⟨rfl, by
    intro w h x kk hd
    have hw : State.reset.fetchWord = some 0 := by decide +kernel
    rw [hw] at h
    cases h
    cases hd⟩

theorem witness_StoreChangesExactlyOneByte :
    0xFFF < 4096 ∧ Memory.wf State.reset.font State.reset.mem = true ∧ 0xFFE ≠ 0xFFF := by decide

theorem witness_StoredBytesAreFetchedNext :
    (1 : Nibble) ≠ 0 ∧ (State.reset.setI 0x200).i = State.reset.pc ∧ ∃ t, exec (.storeRegs 1) (State.reset.setI 0x200) = .next t := ⟨by decide, by decide, (next_of_onNext (check := fun _ => true) (by decide +kernel)).imp fun _ h => h.1⟩

theorem witness_NopOnlyAdvances :
    (State.reset.withFetchWord 16 0x8129).fetchWord = some 0x8129 ∧ ∀ r ∈ opcodeTable, r.selects 0x8129 = false := ⟨by decide +kernel, by decide⟩

theorem witness_CallPushesAdvancedPc :
    State.reset.sp.toNat < 16 ∧ (State.reset.setSp 15).sp.toNat < 16 ∧ (State.reset.setSp 16).sp.toNat = 16 := by decide

theorem witness_RetPopsReturnAddress :
    (State.reset.setSp 1).sp.toNat = (0 : Fin 16).val + 1 ∧ (State.reset.setSp 16).sp.toNat = (15 : Fin 16).val + 1 ∧
      State.reset.sp.toNat = 0 := by decide

theorem witness_RetUndoesCall :
    ∃ t, exec (.call 0x300) (State.reset.setSp 15) = .next t := (next_of_onNext (check := fun _ => true) (by decide +kernel)).imp fun _ h => h.1

/-- Both cases of the comparison occur. -/
theorem witness_SkipsOnImmediate :
    (State.reset.writeV 0xA 5).readV 0xA = 5 ∧ (State.reset.writeV 0xA 6).readV 0xA ≠ 5 := by decide

theorem witness_SkipsOnRegisters :
    (withRegs 1 9 2 9).readV 1 = (withRegs 1 9 2 9).readV 2 ∧ (withRegs 1 9 2 8).readV 1 ≠ (withRegs 1 9 2 8).readV 2 := by decide

/-- The first sum with a carry and the last without (T-ALU-8, T-ALU-9). -/
theorem witness_AddSetsCarry :
    255 < ((withRegs 1 0xFF 2 1).readV 1).toNat + ((withRegs 1 0xFF 2 1).readV 2).toNat ∧
      ¬ 255 < ((withRegs 1 0xF0 2 0x0F).readV 1).toNat + ((withRegs 1 0xF0 2 0x0F).readV 2).toNat ∧ (1 : Nibble) ≠ 0xF := by decide

theorem witness_SubtractSetsStrictFlag :
    ((withRegs 1 0x41 2 0x42).readV 1).toNat < ((withRegs 1 0x41 2 0x42).readV 2).toNat ∧
      ¬ ((withRegs 1 0x42 2 0x42).readV 1).toNat < ((withRegs 1 0x42 2 0x42).readV 2).toNat ∧ (0xE : Nibble) ≠ 0xF := by decide

theorem witness_ShiftsSetShiftedOutBit :
    (0xE : Nibble) ≠ 0xF := by decide

theorem witness_VfChangesOnlyAsFlagOrDestination :
    (∃ t, exec (.addReg 0xF 1) (State.reset) = .next t) ∧ (∃ t, exec (.loadRegs 0xE) (State.reset) = .next t) ∧
      (0xE : Nibble) ≠ 0xF ∧ ∃ t, exec .cls (State.reset) = .next t := ⟨(next_of_onNext (check := fun _ => true) (by decide +kernel)).imp fun _ h => h.1,
    (next_of_onNext (check := fun _ => true) (by decide +kernel)).imp fun _ h => h.1, by decide,
    (next_of_onNext (check := fun _ => true) (by decide +kernel)).imp fun _ h => h.1⟩

theorem witness_BcdStoresDigits :
    (State.reset.setI 0xFFD).i.toNat ≤ 0xFFD ∧ 0xFFD < (State.reset.setI 0xFFE).i.toNat := by decide

theorem witness_StoreRegistersStoresBlock :
    (State.reset.setI 0xFF0).i.toNat + (0xF : Nibble).toNat ≤ 0xFFF ∧ 0xFFF < (State.reset.setI 0xFF1).i.toNat + (0xF : Nibble).toNat := by decide

theorem witness_LoadRegistersLoadsBlock :
    (State.reset.setI 0xFFF).i.toNat + (0 : Nibble).toNat ≤ 0xFFF ∧ 0xFFF < (State.reset.setI 0xFFF).i.toNat + (1 : Nibble).toNat := by decide

/-- V0 is overwritten between the store and the load. -/
theorem witness_LoadAfterStoreRestoresRegisters :
    (∃ t, exec (.storeRegs 1) ((withRegs 0 1 2 3).setI 0xFFE) = .next t) ∧
      ∀ k : Nibble, (1 : Nibble).toNat < k.toNat → ((withRegs 0 7 2 3).v[k.toNat]'k.isLt) = ((withRegs 0 1 2 3).setI 0xFFE).readV k := ⟨(next_of_onNext (check := fun _ => true) (by decide +kernel)).imp fun _ h => h.1, by decide +kernel⟩

/-- The state of T-DRW-1: one byte 0x80 at `I`. -/
def spriteState : State := (State.reset.setI 0x300).store 0x300 0x80

/-- `spriteState` with the cell of the sprite's one set bit on. -/
def litSpriteState : State := spriteState.setFb (toggleCell spriteState.fb 0 0)

theorem witness_DrawFlipsSpriteCells_bounds :
    ((0 : Nibble) = 0 ∨ (State.reset.setI 0xFFFF).i.toNat + (0 : Nibble).toNat ≤ 0x1000) ∧
      ((1 : Nibble) = 0 ∨ (State.reset.setI 0xFFF).i.toNat + (1 : Nibble).toNat ≤ 0x1000) ∧
      (2 : Nibble) ≠ 0 ∧ 0x1000 < (State.reset.setI 0xFFF).i.toNat + (2 : Nibble).toNat := by decide

theorem witness_DrawFlipsSpriteCells_collision :
    ∃ r c, cellAt litSpriteState.fb r c = true ∧ spriteBit (litSpriteState.loadBytes litSpriteState.base (1 : Nibble).toNat)
      ((litSpriteState.readV 1).toNat % 32) ((litSpriteState.readV 0).toNat % 64) r c = true := ⟨0, 0, by decide +kernel⟩

theorem witness_DrawFlipsSpriteCells_none :
    ∀ r c, cellAt State.reset.fb r c = true → spriteBit (State.reset.loadBytes State.reset.base (1 : Nibble).toNat)
      ((State.reset.readV 1).toNat % 32) ((State.reset.readV 0).toNat % 64) r c = false := fun r c h => by
  exfalso
  simp [cellAt, State.reset, State.resetWith] at h

theorem witness_DrawTwiceRestoresDisplay :
    (∃ t, exec (.drw 0 1 1) spriteState = .next t) ∧ (∀ r c, cellAt spriteState.fb r c = false) ∧ (0 : Nibble) ≠ 0xF ∧ (1 : Nibble) ≠ 0xF := ⟨(next_of_onNext (check := fun _ => true) (by decide +kernel)).imp fun _ h => h.1, fun r c => by
    simp [cellAt, spriteState, State.store, State.setMem, State.setI, State.reset, State.resetWith], by decide, by decide⟩

theorem witness_ReadDelayTimer :
    (State.reset.withFetchWord 16 0xF107).fetchWord = some (0xF#4 ++ 1#4 ++ 0x07#8) := by decide +kernel

theorem witness_SetTimers :
    (State.reset.withFetchWord 16 0xF015).fetchWord = some (0xF#4 ++ 0#4 ++ 0x15#8) ∧
      (State.reset.withFetchWord 16 0xFF18).fetchWord = some (0xF#4 ++ 0xF#4 ++ 0x18#8) := by decide +kernel

/-- The jump to its own address of R102. -/
theorem witness_JpSetsPc_self :
    (State.reset.withFetchWord 16 0x1200).fetchWord = some (0x1#4 ++ 0x200#12) ∧
      (State.reset.withFetchWord 16 0x1200).pc.toNat = (0x200#12).toNat := by decide +kernel

/-- The jump whose target cannot be fetched from. -/
theorem witness_JpSetsPc :
    (State.reset.withFetchWord 16 0x1FFF).fetchWord = some (0x1#4 ++ 0xFFF#12) := by decide +kernel

theorem witness_RandomByteIsMasked :
    (State.reset.supplyRandom [0xA7]).rndSeq = 0xA7 :: [] ∧ State.reset.rndSeq = [] := by decide

theorem witness_KeySkips :
    ((State.reset.writeV 2 15).readV 2).toNat < 16 ∧ 15 < ((State.reset.writeV 2 16).readV 2).toNat := by decide

/-- The lowest and the highest key. -/
theorem witness_KeyWaitPolls_pressed :
    (withKeyDown 0 (by decide)).k[0] = true ∧ (∀ l (hl : l < 0), (withKeyDown 0 (by decide)).k[l] = false) ∧
      (withKeyDown 15 (by decide)).k[15] = true ∧ ∀ l (hl : l < 15), (withKeyDown 15 (by decide)).k[l] = false := by decide +kernel

theorem witness_KeyWaitPolls_none :
    ∀ j (h : j < 16), State.reset.k[j] = false := by decide +kernel

theorem witness_KeyWaitStaysInPlace :
    (State.reset.withFetchWord 16 0xF20A).fetchWord = some (0xF#4 ++ 2#4 ++ 0x0A#8) ∧
      ∀ j (h : j < 16), (State.reset.withFetchWord 16 0xF20A).k[j] = false := by decide +kernel

/-- An instruction that is none of the named ones. -/
theorem witness_EachPartHasItsWriters :
    (∃ t, exec (.nop 0x0001) State.reset = .next t) ∧ writesRegister (.nop 0x0001) 0xF = false ∧
      writesPc (.nop 0x0001) = false ∧ (∀ x, Instr.nop 0x0001 ≠ .ldB x ∧ Instr.nop 0x0001 ≠ .storeRegs x) ∧
      Instr.nop 0x0001 ≠ .ret ∧ (∀ nnn, Instr.nop 0x0001 ≠ .call nnn) ∧ (∀ x, Instr.nop 0x0001 ≠ .ldDtVx x) ∧
      (∀ x, Instr.nop 0x0001 ≠ .ldStVx x) ∧ Instr.nop 0x0001 ≠ .cls ∧ (∀ x y n, Instr.nop 0x0001 ≠ .drw x y n) ∧
      (∀ nnn, Instr.nop 0x0001 ≠ .ldI nnn) ∧ (∀ x, Instr.nop 0x0001 ≠ .addI x ∧ Instr.nop 0x0001 ≠ .ldF x) ∧
      ∀ x kk, Instr.nop 0x0001 ≠ .rnd x kk := by
  refine ⟨(next_of_onNext (check := fun _ => true) (by decide +kernel)).imp fun _ h => h.1, by decide, by decide, ?_⟩
  simp

/-- A register just outside what is written. -/
theorem witness_EachPartHasItsWriters_registers :
    (∃ t, exec (.loadRegs 0xE) State.reset = .next t) ∧ writesRegister (.loadRegs 0xE) 0xF = false ∧
      (∃ t, exec (.addReg 0xE 0) State.reset = .next t) ∧ writesRegister (.addReg 0xE 0) 0xD = false := ⟨(next_of_onNext (check := fun _ => true) (by decide +kernel)).imp fun _ h => h.1, by decide,
    (next_of_onNext (check := fun _ => true) (by decide +kernel)).imp fun _ h => h.1, by decide⟩

theorem witness_PcMovesOnlyByControlTransfer :
    (∃ t, exec (.ldVxK 2) State.reset = .next t) ∧ (∃ t, exec (.seImm 0 0) State.reset = .next t) ∧ ∃ t, exec .cls State.reset = .next t := ⟨(next_of_onNext (check := fun _ => true) (by decide +kernel)).imp fun _ h => h.1,
    (next_of_onNext (check := fun _ => true) (by decide +kernel)).imp fun _ h => h.1,
    (next_of_onNext (check := fun _ => true) (by decide +kernel)).imp fun _ h => h.1⟩

theorem witness_OpcodeLatchIsHidden :
    (∃ t, exec .cls State.reset = .next t) ∧ ∃ f, exec .ret State.reset = .fault f := ⟨(next_of_onNext (check := fun _ => true) (by decide +kernel)).imp fun _ h => h.1,
    (fault_of_onFault (check := fun _ => true) (by decide +kernel)).imp fun _ h => h.1⟩

theorem witness_DisplayIsReadOnlyByDraw :
    ∀ x y n, Instr.cls ≠ .drw x y n := by simp

theorem witness_KeysAreReadOnlyByKeyInstructions :
    ∀ x, Instr.cls ≠ .skp x ∧ Instr.cls ≠ .sknp x ∧ Instr.cls ≠ .ldVxK x := by simp

end Sys2Proof.Tests
end

section
/-! PROOFS. Control flow (spec/41_flow.md): the no-op of a word that selects no row, and the skips on an immediate. -/

namespace Sys2Proof

/-! ### What the masks of the opcode table keep (R81) -/

/-- A mask cut into nibbles acts on each field of the word alone. -/
theorem and_nibbles (w : Word) (a x y n : Nibble) :
    w &&& (a ++ x ++ y ++ n) = (opField w &&& a) ++ (xField w &&& x) ++ (yField w &&& y) ++ (nField w &&& n) := by
  conv_lhs => rw [word_eq_nibbles w]
  rw [BitVec.and_append, BitVec.and_append, BitVec.and_append]

theorem kkField_eq_nibbles (w : Word) : kkField w = yField w ++ nField w := by
  conv_lhs => rw [word_eq_nibbles w, kkField_nibbles]

/-- The mask 0xF000 keeps the first key. -/
theorem and_opMask (w : Word) : w &&& 0xF000 = opField w ++ 0#4 ++ 0#4 ++ 0#4 := by
  have hm : (0xF000 : Word) = BitVec.allOnes 4 ++ 0#4 ++ 0#4 ++ 0#4 := rfl
  rw [hm, and_nibbles]
  simp only [BitVec.and_zero, BitVec.and_allOnes]

/-- The mask 0xF00F keeps the first key and the low nibble. -/
theorem and_opLowMask (w : Word) : w &&& 0xF00F = opField w ++ 0#4 ++ 0#4 ++ nField w := by
  have hm : (0xF00F : Word) = BitVec.allOnes 4 ++ 0#4 ++ 0#4 ++ BitVec.allOnes 4 := rfl
  rw [hm, and_nibbles]
  simp only [BitVec.and_zero, BitVec.and_allOnes]

/-- The mask 0xF0FF keeps the first key and the low byte. -/
theorem and_opByteMask (w : Word) : w &&& 0xF0FF = opField w ++ 0#4 ++ kkField w := by
  have hm : (0xF0FF : Word) = BitVec.allOnes 4 ++ 0#4 ++ BitVec.allOnes 4 ++ BitVec.allOnes 4 := rfl
  rw [hm, and_nibbles, kkField_eq_nibbles]
  simp only [BitVec.and_zero, BitVec.and_allOnes]
  exact BitVec.append_assoc

/-- A word that selects no row decodes to the no-op (R79, R82): every key that the decoder does not leave to its fallback
selects a row of the table. -/
theorem decodeWord_of_selects_none {w : Word} (h : ∀ r ∈ opcodeTable, r.selects w = false) : decodeWord w = .nop w := by
  simp only [opcodeTable, opcodeRowsFlow, opcodeRowsAlu, opcodeRowsMisc, opcodeRowsF, List.forall_mem_append,
    List.forall_mem_cons, OpcodeRow.selects, and_opMask, and_opLowMask, and_opByteMask] at h
  unfold decodeWord
  split <;> rename_i hop
  case h_1 =>
    unfold decodeCategory0
    split <;> rename_i hn
    case h_3 => rfl
    all_goals simp [hop, hn] at h
  case h_9 =>
    unfold decodeCategory8
    split <;> rename_i hn
    case h_10 => rfl
    all_goals simp [hop, hn] at h
  case h_15 =>
    unfold decodeCategoryE
    split <;> rename_i hn
    case h_3 => rfl
    all_goals simp [hop, hn] at h
  case h_16 =>
    have hop : opField w = 0xF := by
      clear h
      simp only [imp_false] at *
      bv_omega
    unfold decodeCategoryF
    split <;> rename_i hkk
    case h_10 => rfl
    all_goals simp [hop, hkk] at h
  all_goals simp [hop] at h

end Sys2Proof

namespace Sys2Proof.Machine

/-! ### The cycle of a no-op (R100) -/

/-- A fetched word is decoded, executed on the advanced state, and the cycle finished (R90). -/
theorem step_of_fetchWord {s : State} {w : Word} (h : s.fetchWord = some w) :
    step s = finishCycle (exec (decodeWord w) (s.advance w)) := by
  rw [step, h]

theorem exec_nop (word : Word) (s : State) : exec (.nop word) s = .next s := rfl

/-- The stages around the handler write `OPC`, `PC` and the timers only (R92, R95). -/
theorem samePart_advance_tick (s : State) (w : Word) {p : Part} (hp : p ∉ [Part.pc, Part.delay, Part.sound]) :
    SamePart s (s.advance w).tick p := by
  cases p <;> simp [SamePart, State.advance, State.tick] at *

/-- Settles O23: such a word decodes to the no-op, so the whole cycle is the advance and the tick. -/
theorem nopOnlyAdvances : Obligations.NopOnlyAdvances := by
  refine ⟨exec_nop, fun s w hfetch hnone => ⟨(s.advance w).tick, ?_, rfl, rfl, tickTimer_toNat s.dt, tickTimer_toNat s.st,
    rfl, rfl, fun p => samePart_advance_tick s w⟩⟩
  rw [step_of_fetchWord hfetch, decodeWord_of_selects_none hnone, exec_nop, finishCycle]

/-! ### Skips (R104, R105, R108) -/

/-- A handler that ends in a skip completes, moves `PC` by 2 or not at all, and changes nothing else. -/
theorem skipIf_next (c : Bool) (s : State) :
    ∃ t, (.next (skipIf c s) : Result) = .next t ∧ t.pc = (if c then s.pc + 2 else s.pc) ∧ ChangesOnly [.pc] s t := by
  rw [skipIf_eq]
  exact ⟨_, rfl, State.setPc_pc .., setPc_changesOnly ..⟩

theorem exec_seImm (x : Nibble) (kk : Byte) (s : State) : exec (.seImm x kk) s = .next (skipIf (s.readV x == kk) s) := rfl

theorem exec_sneImm (x : Nibble) (kk : Byte) (s : State) : exec (.sneImm x kk) s = .next (skipIf (s.readV x != kk) s) := rfl

theorem decodeWord_seImm (x : Nibble) (kk : Byte) : decodeWord (0x3#4 ++ x ++ kk) = .seImm x kk := by
  simp [decodeWord]

theorem decodeWord_sneImm (x : Nibble) (kk : Byte) : decodeWord (0x4#4 ++ x ++ kk) = .sneImm x kk := by
  simp [decodeWord]

/-- Settles O28: both handlers are one skip, on the comparison and on its negation. -/
theorem skipsOnImmediate : Obligations.SkipsOnImmediate := by
  refine fun x kk s => ⟨decodeWord_seImm x kk, decodeWord_sneImm x kk, ?_, ?_⟩
  · simpa only [exec_seImm, beq_iff_eq] using skipIf_next (s.readV x == kk) s
  · simpa only [exec_sneImm, bne_iff_ne, ne_eq, ite_not] using skipIf_next (s.readV x != kk) s

end Sys2Proof.Machine
end

section
/-! PROOFS. Loads, the add of an immediate, and the register copy (spec/42_alu.md, R121 to R123). -/

namespace Sys2Proof.Machine

/-! ### Where the three words decode (R74, R76) -/

theorem decodeWord_ldImm (x : Nibble) (kk : Byte) : decodeWord (0x6#4 ++ x ++ kk) = .ldImm x kk := by
  simp [decodeWord]

theorem decodeWord_addImm (x : Nibble) (kk : Byte) : decodeWord (0x7#4 ++ x ++ kk) = .addImm x kk := by
  simp [decodeWord]

/-- A word of category 8 is decoded by its low nibble. -/
theorem decodeWord_category8 (x y n : Nibble) :
    decodeWord (0x8#4 ++ x ++ y ++ n) = decodeCategory8 (0x8#4 ++ x ++ y ++ n) := by
  simp [decodeWord]

theorem decodeWord_ldReg (x y : Nibble) : decodeWord (0x8#4 ++ x ++ y ++ 0x0#4) = .ldReg x y := by
  rw [decodeWord_category8]
  simp [decodeCategory8]

/-! ### One register written, no flag -/

/-- A handler that ends in one register write completes, the register reads the byte back, and no other one changes, `VF`
included. -/
theorem writeV_next (s : State) (x : Nibble) (b : Byte) :
    ∃ t, (.next (s.writeV x b) : Result) = .next t ∧ t.readV x = b ∧ ChangesOnlyRegs (· = x) s t :=
  ⟨_, rfl, by rw [State.writeV_readV, if_pos rfl], writeV_changesOnly ..⟩

theorem exec_ldImm (x : Nibble) (kk : Byte) (s : State) : exec (.ldImm x kk) s = .next (s.writeV x kk) := rfl

theorem exec_addImm (x : Nibble) (kk : Byte) (s : State) : exec (.addImm x kk) s = .next (s.writeV x (s.readV x + kk)) := rfl

theorem exec_ldReg (x y : Nibble) (s : State) : exec (.ldReg x y) s = .next (s.writeV x (s.readV y)) := rfl

/-- Settles O31: both handlers are one register write; the sum of two bytes is already taken mod 256. -/
theorem loadAndAddImmediate : Obligations.LoadAndAddImmediate := by
  refine fun x kk s => ⟨decodeWord_ldImm x kk, decodeWord_addImm x kk, ?_, ?_⟩
  · simpa only [exec_ldImm] using writeV_next s x kk
  · obtain ⟨t, hnext, hsum, hframe⟩ := writeV_next s x (s.readV x + kk)
    exact ⟨t, (exec_addImm x kk s).trans hnext, by rw [hsum, BitVec.toNat_add], hframe⟩

/-- Settles O32: the handler is one register write, of the byte `Vy` holds. -/
theorem copyRegister : Obligations.CopyRegister := by
  refine fun x y s => ⟨decodeWord_ldReg x y, ?_⟩
  simpa only [exec_ldReg] using writeV_next s x (s.readV y)

end Sys2Proof.Machine
end

section
/-! PROOFS. The load of the index register (spec/43_index_mem.md, R141). -/

namespace Sys2Proof.Machine

theorem decodeWord_ldI (nnn : Addr) : decodeWord (0xA#4 ++ nnn) = .ldI nnn := by
  simp [decodeWord]

theorem exec_ldI (nnn : Addr) (s : State) : exec (.ldI nnn) s = .next (s.setI (addrOf nnn)) := rfl

/-- An address fits in the low 12 bits of a word: widening it keeps its value, so bits 15:12 are 0. -/
theorem addrOf_toNat (nnn : Addr) : (addrOf nnn).toNat = nnn.toNat :=
  BitVec.toNat_setWidth_of_le (by decide)

/-- A handler that ends in one write of `I` completes, `I` holds the word, and nothing else changes. -/
theorem setI_next (s : State) (w : Word) :
    ∃ t, (.next (s.setI w) : Result) = .next t ∧ t.i = w ∧ ChangesOnly [.index] s t :=
  ⟨_, rfl, State.setI_i .., setI_changesOnly ..⟩

/-- Settles O38: the handler is one write of `I`, of the zero-extended address. -/
theorem loadIndex : Obligations.LoadIndex := by
  refine fun nnn s => ⟨decodeWord_ldI nnn, ?_⟩
  obtain ⟨t, hnext, hi, hframe⟩ := setI_next s (addrOf nnn)
  exact ⟨t, (exec_ldI nnn s).trans hnext, by rw [hi, addrOf_toNat], hframe⟩

end Sys2Proof.Machine
end

section
/-! PROOFS. The read of the delay timer (spec/45_timer_key_rnd.md, R161). -/

namespace Sys2Proof.Machine

/-- A word of category F is decoded by its low byte. -/
theorem decodeWord_categoryF (x : Nibble) (kk : Byte) :
    decodeWord (0xF#4 ++ x ++ kk) = decodeCategoryF (0xF#4 ++ x ++ kk) := by
  simp [decodeWord]

theorem decodeWord_ldVxDt (x : Nibble) : decodeWord (0xF#4 ++ x ++ 0x07#8) = .ldVxDt x := by
  rw [decodeWord_categoryF]
  simp [decodeCategoryF]

theorem exec_ldVxDt (x : Nibble) (s : State) : exec (.ldVxDt x) s = .next (s.writeV x s.dt) := rfl

/-- The cycle of a handler that completes ends in the tick of the state the handler leaves (R94, R95). -/
theorem step_of_exec_next {s u : State} {w : Word} (hfetch : s.fetchWord = some w)
    (hexec : exec (decodeWord w) (s.advance w) = .next u) : step s = .next u.tick := by
  rw [step_of_fetchWord hfetch, hexec, finishCycle]

theorem State.advance_dt (s : State) (w : Word) : (s.advance w).dt = s.dt := rfl

theorem State.tick_readV (s : State) (r : Nibble) : s.tick.readV r = s.readV r := rfl

theorem State.tick_dt_toNat (s : State) : s.tick.dt.toNat = s.dt.toNat - 1 := tickTimer_toNat s.dt

/-- Settles O47: the handler is one register write, of `DT`, which the advance before it leaves alone; the tick after it takes
`DT` down and leaves the register. -/
theorem readDelayTimer : Obligations.ReadDelayTimer := by
  refine fun x s => ⟨decodeWord_ldVxDt x, ?_, fun hfetch => ?_⟩
  · simpa only [exec_ldVxDt] using writeV_next s x s.dt
  · have hexec := exec_ldVxDt x (s.advance (0xF#4 ++ x ++ 0x07#8))
    rw [← decodeWord_ldVxDt x] at hexec
    refine ⟨_, step_of_exec_next hfetch hexec, ?_, ?_⟩
    · rw [State.tick_readV, State.writeV_readV, if_pos rfl, State.advance_dt]
    · rw [State.tick_dt_toNat, State.writeV_dt, State.advance_dt]

end Sys2Proof.Machine
end

section
/-! PROOFS. The decoder (spec/30_encoding.md): where each pattern decodes, decode after encode, and the decoder against the
opcode table. -/

namespace Sys2Proof.Machine

/-! ### Where each pattern decodes (R74 to R78); a field that a row does not examine is free (R80) -/

theorem decodeWord_cls (p q : Nibble) : decodeWord (0x0#4 ++ p ++ q ++ 0x0#4) = .cls := by
  simp [decodeWord, decodeCategory0]

theorem decodeWord_ret (p q : Nibble) : decodeWord (0x0#4 ++ p ++ q ++ 0xE#4) = .ret := by
  simp [decodeWord, decodeCategory0]

theorem decodeWord_jp (nnn : Addr) : decodeWord (0x1#4 ++ nnn) = .jp nnn := by simp [decodeWord]

theorem decodeWord_call (nnn : Addr) : decodeWord (0x2#4 ++ nnn) = .call nnn := by simp [decodeWord]

theorem decodeWord_seReg (x y q : Nibble) : decodeWord (0x5#4 ++ x ++ y ++ q) = .seReg x y := by simp [decodeWord]

theorem decodeWord_sneReg (x y q : Nibble) : decodeWord (0x9#4 ++ x ++ y ++ q) = .sneReg x y := by simp [decodeWord]

theorem decodeWord_orReg (x y : Nibble) : decodeWord (0x8#4 ++ x ++ y ++ 0x1#4) = .orReg x y := by
  simp [decodeWord_category8, decodeCategory8]

theorem decodeWord_andReg (x y : Nibble) : decodeWord (0x8#4 ++ x ++ y ++ 0x2#4) = .andReg x y := by
  simp [decodeWord_category8, decodeCategory8]

theorem decodeWord_xorReg (x y : Nibble) : decodeWord (0x8#4 ++ x ++ y ++ 0x3#4) = .xorReg x y := by
  simp [decodeWord_category8, decodeCategory8]

theorem decodeWord_addReg (x y : Nibble) : decodeWord (0x8#4 ++ x ++ y ++ 0x4#4) = .addReg x y := by
  simp [decodeWord_category8, decodeCategory8]

theorem decodeWord_subReg (x y : Nibble) : decodeWord (0x8#4 ++ x ++ y ++ 0x5#4) = .subReg x y := by
  simp [decodeWord_category8, decodeCategory8]

theorem decodeWord_shr (x y : Nibble) : decodeWord (0x8#4 ++ x ++ y ++ 0x6#4) = .shr x := by
  simp [decodeWord_category8, decodeCategory8]

theorem decodeWord_subn (x y : Nibble) : decodeWord (0x8#4 ++ x ++ y ++ 0x7#4) = .subn x y := by
  simp [decodeWord_category8, decodeCategory8]

theorem decodeWord_shl (x y : Nibble) : decodeWord (0x8#4 ++ x ++ y ++ 0xE#4) = .shl x := by
  simp [decodeWord_category8, decodeCategory8]

theorem decodeWord_jpV0 (nnn : Addr) : decodeWord (0xB#4 ++ nnn) = .jpV0 nnn := by simp [decodeWord]

theorem decodeWord_rnd (x : Nibble) (kk : Byte) : decodeWord (0xC#4 ++ x ++ kk) = .rnd x kk := by simp [decodeWord]

theorem decodeWord_drw (x y n : Nibble) : decodeWord (0xD#4 ++ x ++ y ++ n) = .drw x y n := by simp [decodeWord]

theorem decodeWord_skp (x q : Nibble) : decodeWord (0xE#4 ++ x ++ q ++ 0xE#4) = .skp x := by
  simp [decodeWord, decodeCategoryE]

theorem decodeWord_sknp (x q : Nibble) : decodeWord (0xE#4 ++ x ++ q ++ 0x1#4) = .sknp x := by
  simp [decodeWord, decodeCategoryE]

theorem decodeWord_ldVxK (x : Nibble) : decodeWord (0xF#4 ++ x ++ 0x0A#8) = .ldVxK x := by
  simp [decodeWord_categoryF, decodeCategoryF]

theorem decodeWord_ldDtVx (x : Nibble) : decodeWord (0xF#4 ++ x ++ 0x15#8) = .ldDtVx x := by
  simp [decodeWord_categoryF, decodeCategoryF]

theorem decodeWord_ldStVx (x : Nibble) : decodeWord (0xF#4 ++ x ++ 0x18#8) = .ldStVx x := by
  simp [decodeWord_categoryF, decodeCategoryF]

theorem decodeWord_addI (x : Nibble) : decodeWord (0xF#4 ++ x ++ 0x1E#8) = .addI x := by
  simp [decodeWord_categoryF, decodeCategoryF]

theorem decodeWord_ldF (x : Nibble) : decodeWord (0xF#4 ++ x ++ 0x29#8) = .ldF x := by
  simp [decodeWord_categoryF, decodeCategoryF]

theorem decodeWord_ldB (x : Nibble) : decodeWord (0xF#4 ++ x ++ 0x33#8) = .ldB x := by
  simp [decodeWord_categoryF, decodeCategoryF]

theorem decodeWord_storeRegs (x : Nibble) : decodeWord (0xF#4 ++ x ++ 0x55#8) = .storeRegs x := by
  simp [decodeWord_categoryF, decodeCategoryF]

theorem decodeWord_loadRegs (x : Nibble) : decodeWord (0xF#4 ++ x ++ 0x65#8) = .loadRegs x := by
  simp [decodeWord_categoryF, decodeCategoryF]

/-! ### The words of the no-op (R82) -/

/-- The words of R82, by the keys of the two decoder levels. -/
theorem isNopWord_iff (w : Word) : isNopWord w = true ↔
    (opField w = 0x0 ∧ nField w ≠ 0x0 ∧ nField w ≠ 0xE) ∨
    (opField w = 0x8 ∧ nField w ∈ [0x8, 0x9, 0xA, 0xB, 0xC, 0xD, (0xF : Nibble)]) ∨
    (opField w = 0xE ∧ nField w ≠ 0x1 ∧ nField w ≠ 0xE) ∨
    (opField w = 0xF ∧ kkField w ∉ [0x07, 0x0A, 0x15, 0x18, 0x1E, 0x29, 0x33, 0x55, (0x65 : Byte)]) := by
  simp [isNopWord, opField, nField, kkField, and_assoc, or_assoc]

/-- The decoder gives the no-op for the words of R82 and no others, and the no-op carries the word it stands for. -/
theorem decodeWord_eq_nop_iff (w word : Word) : decodeWord w = .nop word ↔ isNopWord w = true ∧ w = word := by
  rw [isNopWord_iff]
  unfold decodeWord
  split <;> rename_i hop
  case h_1 =>
    unfold decodeCategory0
    split <;> simp_all
  case h_9 =>
    unfold decodeCategory8
    split
    case h_10 =>
      -- The fallback: the low nibble is none of the nine keys above, so it is one of the seven left.
      simp only [imp_false] at *
      simp [hop]
      bv_omega
    all_goals simp_all
  case h_15 =>
    unfold decodeCategoryE
    split <;> simp_all
  case h_16 =>
    -- The last arm of the first level is reached by the one key that no arm above names.
    have hop : opField w = 0xF := by
      simp only [imp_false] at *
      bv_omega
    unfold decodeCategoryF
    split <;> simp_all
  all_goals simp [hop]

/-! ### Decode after encode (R80 to R82) -/

/-- A low byte written as two nibbles. -/
theorem append_byte_eq_nibbles (a x y n : Nibble) : (a ++ x ++ (y ++ n : Byte) : Word) = a ++ x ++ y ++ n :=
  (BitVec.append_assoc (x₁ := (a ++ x : Byte)) (x₂ := y) (x₃ := n)).symm

theorem decodeWord_encode {i : Instr} (h : i.wellFormed = true) : decodeWord (encode i) = i := by
  cases i with
  | cls => exact decodeWord_cls 0x0 0xE
  | ret => exact decodeWord_ret 0x0 0xE
  | jp nnn => exact decodeWord_jp nnn
  | call nnn => exact decodeWord_call nnn
  | seImm x kk => exact decodeWord_seImm x kk
  | sneImm x kk => exact decodeWord_sneImm x kk
  | seReg x y => exact decodeWord_seReg x y 0x0
  | ldImm x kk => exact decodeWord_ldImm x kk
  | addImm x kk => exact decodeWord_addImm x kk
  | ldReg x y => exact decodeWord_ldReg x y
  | orReg x y => exact decodeWord_orReg x y
  | andReg x y => exact decodeWord_andReg x y
  | xorReg x y => exact decodeWord_xorReg x y
  | addReg x y => exact decodeWord_addReg x y
  | subReg x y => exact decodeWord_subReg x y
  | shr x => exact decodeWord_shr x 0x0
  | subn x y => exact decodeWord_subn x y
  | shl x => exact decodeWord_shl x 0x0
  | sneReg x y => exact decodeWord_sneReg x y 0x0
  | ldI nnn => exact decodeWord_ldI nnn
  | jpV0 nnn => exact decodeWord_jpV0 nnn
  | rnd x kk => exact decodeWord_rnd x kk
  | drw x y n => exact decodeWord_drw x y n
  | skp x => exact (congrArg decodeWord (append_byte_eq_nibbles 0xE x 0x9 0xE)).trans (decodeWord_skp x 0x9)
  | sknp x => exact (congrArg decodeWord (append_byte_eq_nibbles 0xE x 0xA 0x1)).trans (decodeWord_sknp x 0xA)
  | ldVxDt x => exact decodeWord_ldVxDt x
  | ldVxK x => exact decodeWord_ldVxK x
  | ldDtVx x => exact decodeWord_ldDtVx x
  | ldStVx x => exact decodeWord_ldStVx x
  | addI x => exact decodeWord_addI x
  | ldF x => exact decodeWord_ldF x
  | ldB x => exact decodeWord_ldB x
  | storeRegs x => exact decodeWord_storeRegs x
  | loadRegs x => exact decodeWord_loadRegs x
  | nop word => exact (decodeWord_eq_nop_iff word word).mpr ⟨h, rfl⟩

/-- Settles O1: each canonical pattern decodes back to its row, and the two bytes of a word are the word again. -/
theorem decodeOfEncodeIsIdentity : Obligations.DecodeOfEncodeIsIdentity := fun i h =>
  ⟨decodeWord_encode h, fun rest => by rw [decodeBytes_encodeBytes, decodeWord_encode h]⟩

/-- The only instruction with a condition is the no-op, and the decoder gives it for the words of R82 only. -/
theorem decodeWord_wellFormed (w : Word) : (decodeWord w).wellFormed = true := by
  cases h : decodeWord w with
  | nop word =>
    obtain ⟨hnop, rfl⟩ := (decodeWord_eq_nop_iff w word).mp h
    exact hnop
  | _ => rfl

/-- Settles O2: what the decoder gives is well-formed, so its canonical word decodes back to it. -/
theorem everyWordDecodesWellFormed : Obligations.EveryWordDecodesWellFormed := fun w =>
  ⟨decodeWord_wellFormed w, decodeWord_encode (decodeWord_wellFormed w)⟩

/-! ### The decoder and the opcode table (R81, R86) -/

/-- A row with the mask 0xF000 fixes the first key. -/
theorem opField_of_and_opMask {w p : Word} (h : w &&& 0xF000 = p) : opField w = opField p := by
  rw [← h, and_opMask, opField_nibbles]

/-- A row with the mask 0xF00F fixes the first key and the low nibble. -/
theorem keys_of_and_opLowMask {w p : Word} (h : w &&& 0xF00F = p) : opField w = opField p ∧ nField w = nField p := by
  rw [← h, and_opLowMask, opField_nibbles, nField_nibbles]
  exact ⟨rfl, rfl⟩

/-- A row with the mask 0xF0FF fixes the first key and the low byte. -/
theorem keys_of_and_opByteMask {w p : Word} (h : w &&& 0xF0FF = p) : opField w = opField p ∧ kkField w = kkField p := by
  rw [← h, and_opByteMask, opField_byte, kkField_byte]
  exact ⟨rfl, rfl⟩

theorem decodeWord_of_rowsFlow {w : Word} {r : OpcodeRow} (hr : r ∈ opcodeRowsFlow) (h : w &&& r.mask = r.pattern) :
    decodeWord w = r.build w := by
  simp only [opcodeRowsFlow, List.mem_cons, List.not_mem_nil, or_false] at hr
  obtain rfl | rfl | hr := hr
  iterate 2
    · obtain ⟨hop, hn⟩ := keys_of_and_opLowMask h
      rw [decodeWord, hop, decodeCategory0, hn]
      rfl
  obtain rfl | rfl | rfl | rfl | rfl | rfl | rfl | rfl := hr <;>
  · rw [decodeWord, opField_of_and_opMask h]
    rfl

theorem decodeWord_of_rowsAlu {w : Word} {r : OpcodeRow} (hr : r ∈ opcodeRowsAlu) (h : w &&& r.mask = r.pattern) :
    decodeWord w = r.build w := by
  simp only [opcodeRowsAlu, List.mem_cons, List.not_mem_nil, or_false] at hr
  obtain rfl | rfl | rfl | rfl | rfl | rfl | rfl | rfl | rfl := hr <;>
  · obtain ⟨hop, hn⟩ := keys_of_and_opLowMask h
    rw [decodeWord, hop, decodeCategory8, hn]
    rfl

theorem decodeWord_of_rowsMisc {w : Word} {r : OpcodeRow} (hr : r ∈ opcodeRowsMisc) (h : w &&& r.mask = r.pattern) :
    decodeWord w = r.build w := by
  simp only [opcodeRowsMisc, List.mem_cons, List.not_mem_nil, or_false] at hr
  obtain rfl | rfl | rfl | rfl | hr := hr
  iterate 4
    · rw [decodeWord, opField_of_and_opMask h]
      rfl
  obtain rfl | rfl := hr <;>
  · obtain ⟨hop, hn⟩ := keys_of_and_opLowMask h
    rw [decodeWord, hop, decodeCategoryE, hn]
    rfl

theorem decodeWord_of_rowsF {w : Word} {r : OpcodeRow} (hr : r ∈ opcodeRowsF) (h : w &&& r.mask = r.pattern) :
    decodeWord w = r.build w := by
  simp only [opcodeRowsF, List.mem_cons, List.not_mem_nil, or_false] at hr
  obtain rfl | rfl | rfl | rfl | rfl | rfl | rfl | rfl | rfl := hr <;>
  · obtain ⟨hop, hkk⟩ := keys_of_and_opByteMask h
    rw [decodeWord, hop, decodeCategoryF, hkk]
    rfl

/-- A word that selects a row of the table decodes to that row's instruction (R81). -/
theorem decodeWord_of_selects {w : Word} {r : OpcodeRow} (hr : r ∈ opcodeTable) (h : r.selects w = true) :
    decodeWord w = r.build w := by
  rw [OpcodeRow.selects, beq_iff_eq] at h
  simp only [opcodeTable, List.mem_append] at hr
  obtain ((hr | hr) | hr) | hr := hr
  · exact decodeWord_of_rowsFlow hr h
  · exact decodeWord_of_rowsAlu hr h
  · exact decodeWord_of_rowsMisc hr h
  · exact decodeWord_of_rowsF hr h

/-- Settles O3: a row that the table's search finds is the decoder's own, and where it finds none the decoder falls back. -/
theorem decoderAgreesWithOpcodeTable : Obligations.DecoderAgreesWithOpcodeTable := by
  intro w
  unfold decodeByTable
  cases hfind : opcodeTable.find? (·.selects w) with
  | some r => exact decodeWord_of_selects (List.mem_of_find?_eq_some hfind) (by simpa using List.find?_some hfind)
  | none =>
    refine decodeWord_of_selects_none fun r hr => ?_
    simpa using List.find?_eq_none.mp hfind r hr

/-- Two rows of the table disagree on a bit that both their masks examine. -/
theorem opcodeTable_patterns_disagree :
    opcodeTable.Pairwise (fun r q => r.pattern &&& q.mask ≠ q.pattern &&& r.mask) := by decide

/-- Settles O4: a word with both patterns would make them agree where both masks look. -/
theorem opcodeRowsAreDisjoint : Obligations.OpcodeRowsAreDisjoint := by
  refine fun w => opcodeTable_patterns_disagree.imp fun {r q} hne => ?_
  rintro ⟨hr, hq⟩
  rw [OpcodeRow.selects, beq_iff_eq] at hr hq
  apply hne
  calc r.pattern &&& q.mask = w &&& r.mask &&& q.mask := by rw [hr]
    _ = w &&& q.mask &&& r.mask := by rw [BitVec.and_assoc, BitVec.and_comm r.mask, ← BitVec.and_assoc]
    _ = q.pattern &&& r.mask := by rw [hq]

/-! ### No-op words, sample words, free bits -/

/-- Settles O5: the no-op words by their keys, read off a word of four nibbles. -/
theorem noOpWordsAreExactlyTheListed : Obligations.NoOpWordsAreExactlyTheListed := by
  intro op x y n
  simp only [decodeWord_eq_nop_iff, exists_and_left, exists_eq', and_true, isNopWord_iff, opField_nibbles, nField_nibbles,
    kkField_nibbles]

/-- Settles O6: sixteen closed words, decoded by evaluation. -/
theorem sampleWordsDecode : Obligations.SampleWordsDecode := by
  unfold Obligations.SampleWordsDecode
  decide

/-- Settles O7: the patterns above leave these fields free. -/
theorem unexaminedBitsDoNotMatter : Obligations.UnexaminedBitsDoNotMatter := fun x y q p =>
  ⟨decodeWord_cls q p, decodeWord_ret q p, decodeWord_seReg x y q, decodeWord_sneReg x y q, decodeWord_skp x q,
    decodeWord_sknp x q, decodeWord_shr x q, decodeWord_shl x q⟩

end Sys2Proof.Machine
end

section
/-! PROOFS. The cycle and its faults (spec/40_step.md, spec/60_exceptions.md): the stages around a handler, what a faulting
cycle leaves, and how the host goes on. -/

namespace Sys2Proof.Machine

/-! ### The stages (R91 to R95) -/

theorem fetchWord_of_le {s : State} (h : s.pc.toNat ≤ 0xFFE) :
    s.fetchWord = some (s.load s.pc.toNat ++ s.load (s.pc.toNat + 1)) := by
  rcases s.fetchWord_cases with ⟨-, hf⟩ | ⟨hlt, -⟩
  · exact hf
  · omega

/-- Fetch looks at `PC` and at memory only. -/
theorem fetchWord_congr {s t : State} (hpc : t.pc = s.pc) (hmem : ∀ a, t.load a = s.load a) :
    t.fetchWord = s.fetchWord := by
  simp only [State.fetchWord, hpc, hmem]

theorem State.advance_eq (s : State) (w : Word) : s.advance w = { s with opc := w, pc := s.pc + 2 } := rfl

/-- After a fetch `PC` advances by 2 without wrapping (R92). -/
theorem State.advance_pc_toNat {s : State} (w : Word) (h : s.pc.toNat ≤ 0xFFE) :
    (s.advance w).pc.toNat = s.pc.toNat + 2 := by
  have h2 : (2 : Word).toNat = 2 := rfl
  rw [State.advance_eq, BitVec.toNat_add, h2]
  omega

theorem tickTimer_eq (b : Byte) : tickTimer b = if 0 < b.toNat then b - 1 else b := by
  unfold tickTimer
  by_cases h : b = 0
  · subst h; rfl
  · have hpos : 0 < b.toNat := Nat.pos_of_ne_zero fun h0 => h (BitVec.eq_of_toNat_eq h0)
    rw [if_neg h, if_pos hpos]

theorem State.tick_eq (s : State) : s.tick = { s with
    dt := if 0 < s.dt.toNat then s.dt - 1 else s.dt, st := if 0 < s.st.toNat then s.st - 1 else s.st } := by
  simp only [← tickTimer_eq]
  rfl

theorem State.tick_st_toNat (s : State) : s.tick.st.toNat = s.st.toNat - 1 := tickTimer_toNat s.st

/-- Settles O8: the word is fetched, so the cycle is its handler on the advanced state and then the tick. -/
theorem stepRunsDecodedInstruction : Obligations.StepRunsDecodedInstruction := by
  intro s hpc w s₁
  have hadv : s₁.pc.toNat = s.pc.toNat + 2 := State.advance_pc_toNat w hpc
  have hstep : step s = finishCycle (exec (decodeWord w) s₁) := step_of_fetchWord (fetchWord_of_le hpc)
  refine ⟨hadv, by omega, fun t ht => ?_, fun f hf => ?_, fun r hr => ?_⟩
  · rw [hstep, ht, finishCycle, State.tick_eq]
  · rw [hstep, hf, finishCycle]
  · rw [hstep, hr, finishCycle]

/-! ### The fetch fault (R91) -/

theorem step_of_pc_gt {s : State} (h : 0xFFE < s.pc.toNat) :
    step s = .fault (.fetchOutOfBounds { code := 1, fpc := s.pc, opcode := s.opc, value := s.pc } s) := by
  rcases s.fetchWord_cases with ⟨hle, -⟩ | ⟨-, hnone⟩
  · omega
  · rw [step, hnone]; rfl

/-- Settles O9: no word is fetched, and the stage raises its fault on the untouched state. -/
theorem fetchPastMemoryFaults : Obligations.FetchPastMemoryFaults := fun _ => step_of_pc_gt

/-! ### What a faulting cycle leaves (R172, R177, R178) -/

theorem finishCycle_fault {r : Result} {f : Fault} (h : finishCycle r = .fault f) : r = .fault f := by
  cases r with
  | next u => cases h
  | fault g => exact h
  | refused q => cases h

/-- Either the fetch faults on the untouched state, or the handler of the fetched word faults on the advanced one. -/
theorem step_fault_cases {s : State} {f : Fault} (h : step s = .fault f) :
    (0xFFE < s.pc.toNat ∧
        f = .fetchOutOfBounds { code := 1, fpc := s.pc, opcode := s.opc, value := s.pc } s) ∨
      (s.pc.toNat ≤ 0xFFE ∧ ∃ w c value, s.fetchWord = some w ∧ c ≠ .fetchOutOfBounds ∧
        f = Fault.ofCause c ⟨c.code, s.pc, w, value⟩ (s.advance w)) := by
  by_cases hpc : s.pc.toNat ≤ 0xFFE
  · have hfetch := fetchWord_of_le hpc
    rw [step_of_fetchWord hfetch] at h
    obtain ⟨c, value, hc, hf⟩ := exec_fault_eq (finishCycle_fault h)
    have hback : (s.pc + 2) - 2 = s.pc := BitVec.add_sub_cancel ..
    exact .inr ⟨hpc, _, c, value, hfetch, hc, by rw [hf, State.advance_eq, hback]⟩
  · rw [step_of_pc_gt (by omega), Host.Outcome.fault.injEq] at h
    exact .inl ⟨by omega, h.symm⟩

/-- Settles O12: the two kinds of fault, read off. -/
theorem faultLeavesStateAsTheSpecSays : Obligations.FaultLeavesStateAsTheSpecSays := by
  intro s f h
  obtain ⟨hpc, rfl⟩ | ⟨hpc, w, c, value, hfetch, hc, rfl⟩ := step_fault_cases h
  · exact ⟨rfl, rfl, .inl ⟨hpc, rfl, rfl, rfl⟩⟩
  · simp only [Fault.ofCause_info, Fault.ofCause_cause, Fault.ofCause_after]
    exact ⟨trivial, trivial, .inr ⟨hpc, hc, w, hfetch, rfl, rfl⟩⟩

/-- Settles O13: a fetch fault leaves the state it was raised in; an execute fault leaves `PC` at the next word, which lies in
memory. -/
theorem hostMayContinueAfterFault : Obligations.HostMayContinueAfterFault := by
  intro s f h
  obtain ⟨hpc, rfl⟩ | ⟨hpc, w, c, value, hfetch, hc, rfl⟩ := step_fault_cases h
  · exact ⟨fun _ => h, fun hle => by omega⟩
  · refine ⟨fun hlt => by omega, fun hle => ?_⟩
    have hadv := State.advance_pc_toNat w hpc
    rw [Fault.ofCause_after, fetchWord_of_le (by omega), hadv]
    rfl

end Sys2Proof.Machine
end

section
/-! PROOFS. Control transfer (spec/41_flow.md): jumps, the call and the return, the skips on registers. -/

namespace Sys2Proof.Machine

/-! ### Jumps (R102, R109) -/

theorem exec_jp (nnn : Addr) (s : State) : exec (.jp nnn) s = .next (s.setPc (addrOf nnn)) := rfl

theorem exec_jpV0 (nnn : Addr) (s : State) :
    exec (.jpV0 nnn) s = .next (s.setPc (addrOf nnn + wordOf (s.readV 0))) := rfl

theorem wordOf_toNat (b : Byte) : (wordOf b).toNat = b.toNat := BitVec.toNat_setWidth_of_le (by decide)

/-- The target of Bnnn is at most 0xFFF + 0xFF, so the sum of 16 bits is the sum of the numbers (R109, D18). -/
theorem addrOf_add_wordOf_toNat (nnn : Addr) (b : Byte) : (addrOf nnn + wordOf b).toNat = nnn.toNat + b.toNat := by
  have h1 := nnn.isLt
  have h2 := b.isLt
  rw [BitVec.toNat_add, addrOf_toNat, wordOf_toNat]
  omega

/-- A handler that ends in one write of `PC` completes, `PC` holds the word, and nothing else changes. -/
theorem setPc_next (s : State) (w : Word) :
    ∃ t, (.next (s.setPc w) : Result) = .next t ∧ t.pc = w ∧ ChangesOnly [.pc] s t :=
  ⟨_, rfl, State.setPc_pc .., setPc_changesOnly ..⟩

/-- The whole cycle of a jump. -/
theorem step_jp {s : State} {nnn : Addr} (h : s.fetchWord = some (0x1#4 ++ nnn)) :
    step s = .next ((s.advance (0x1#4 ++ nnn)).setPc (addrOf nnn)).tick :=
  step_of_exec_next h (by rw [decodeWord_jp, exec_jp])

/-- Settles O24: the handler is one write of `PC`; a jump to its own address leaves `PC` and memory as the fetch found them, and
one to 0xFFF leaves `PC` past the last word. -/
theorem jpSetsPc : Obligations.JpSetsPc := by
  intro nnn s
  refine ⟨decodeWord_jp nnn, ?_, fun hfetch => ⟨_, step_jp hfetch, addrOf_toNat nnn, State.tick_dt_toNat _,
    State.tick_st_toNat _, fun hself => ?_, fun hmax => ?_⟩⟩
  · obtain ⟨t, hnext, hpc, hframe⟩ := setPc_next s (addrOf nnn)
    exact ⟨t, (exec_jp nnn s).trans hnext, by rw [hpc, addrOf_toNat], hframe⟩
  · have hpc : addrOf nnn = s.pc := BitVec.eq_of_toNat_eq (by rw [addrOf_toNat, hself])
    exact ⟨hpc, fetchWord_congr hpc fun _ => rfl⟩
  · subst hmax
    have hpast : 0xFFE < (addrOf 0xFFF).toNat := by decide
    exact ⟨_, step_of_pc_gt hpast, rfl⟩

/-- Settles O30: the handler is one write of `PC`, of a sum that does not wrap. -/
theorem jpV0AddsV0 : Obligations.JpV0AddsV0 := by
  refine fun nnn s => ⟨decodeWord_jpV0 nnn, ?_⟩
  obtain ⟨t, hnext, hpc, hframe⟩ := setPc_next s (addrOf nnn + wordOf (s.readV 0))
  exact ⟨t, (exec_jpV0 nnn s).trans hnext, by rw [hpc, addrOf_add_wordOf_toNat], hframe⟩

/-! ### The call (R103) -/

theorem exec_call_of_lt (nnn : Addr) {s : State} (h : s.sp.toNat < 16) : exec (.call nnn) s =
    .next (((s.writeStack ⟨s.sp.toNat, h⟩ s.pc).setSp (s.sp + 1)).setPc (addrOf nnn)) := by
  have hne : ¬ s.sp = 16 := by bv_omega
  simp only [exec, execCall]
  rw [if_neg hne, dif_pos h]

theorem exec_call_full (nnn : Addr) {s : State} (h : s.sp.toNat = 16) : exec (.call nnn) s =
    .fault (.stackOverflow { code := 4, fpc := s.pc - 2, opcode := s.opc, value := 16 } s) := by
  have heq : s.sp = 16 := BitVec.eq_of_toNat_eq h
  simp only [exec, execCall]
  rw [if_pos heq, heq]
  rfl

/-- A depth above 16 is refused (log 5). -/
theorem exec_call_of_gt (nnn : Addr) {s : State} (h : 16 < s.sp.toNat) :
    exec (.call nnn) s = .refused (.stackPointerUnreachable s.sp) := by
  have hne : ¬ s.sp = 16 := by bv_omega
  simp only [exec, execCall]
  rw [if_neg hne, dif_neg (by omega)]

/-- A call that completes found a free entry, and pushed the advanced `PC` there. -/
theorem exec_call_next {nnn : Addr} {s t : State} (h : exec (.call nnn) s = .next t) : ∃ hlt : s.sp.toNat < 16,
    t = ((s.writeStack ⟨s.sp.toNat, hlt⟩ s.pc).setSp (s.sp + 1)).setPc (addrOf nnn) := by
  rcases Nat.lt_trichotomy s.sp.toNat 16 with hlt | heq | hgt
  · rw [exec_call_of_lt nnn hlt, Host.Outcome.next.injEq] at h
    exact ⟨hlt, h.symm⟩
  · rw [exec_call_full nnn heq] at h; cases h
  · rw [exec_call_of_gt nnn hgt] at h; cases h

/-- Writing `PC`, `SP` and a stack entry changes the stack and `PC` only. -/
theorem call_changesOnly (s : State) (n : Fin 16) (w w' : Word) (d : BitVec 5) :
    ChangesOnly [.pc, .stack] s (((s.writeStack n w).setSp d).setPc w') := by
  refine ⟨fun p hp => ?_, rfl, rfl, rfl⟩
  cases p <;> simp [SamePart] at *

/-- `SP` below 16 counts up without wrapping. -/
theorem sp_succ_toNat {d : BitVec 5} (h : d.toNat < 16) : (d + 1).toNat = d.toNat + 1 := by bv_omega

/-- Settles O25: below depth 16 the advanced `PC` is pushed at the depth; at depth 16 the handler raises its fault. -/
theorem callPushesAdvancedPc : Obligations.CallPushesAdvancedPc := by
  refine fun nnn s => ⟨decodeWord_call nnn, fun hlt => ?_, exec_call_full nnn⟩
  refine ⟨_, exec_call_of_lt nnn hlt, ?_, fun n hn => ?_, sp_succ_toNat hlt, addrOf_toNat nnn, call_changesOnly ..⟩
  · rw [State.setPc_readStack, State.setSp_readStack, State.writeStack_readStack, if_pos rfl]
  · rw [State.setPc_readStack, State.setSp_readStack, State.writeStack_readStack, if_neg (by rintro rfl; exact hn rfl)]

/-! ### The return (R101) -/

theorem exec_ret_of_succ {s : State} {n : Fin 16} (h : s.sp.toNat = n.val + 1) :
    exec .ret s = .next ((s.setSp (s.sp - 1)).setPc (s.readStack n)) := by
  have hne : ¬ s.sp = 0 := by bv_omega
  have hlt : s.sp.toNat - 1 < 16 := by omega
  have hn : (⟨s.sp.toNat - 1, hlt⟩ : Fin 16) = n := Fin.ext (by simp only; omega)
  simp only [exec, execRet]
  rw [if_neg hne, dif_pos hlt, hn]

theorem exec_ret_empty {s : State} (h : s.sp.toNat = 0) : exec .ret s =
    .fault (.stackUnderflow { code := 5, fpc := s.pc - 2, opcode := s.opc, value := 0 } s) := by
  have heq : s.sp = 0 := BitVec.eq_of_toNat_eq h
  simp only [exec, execRet]
  rw [if_pos heq, heq]
  rfl

/-- A depth above 16 is refused (log 5). -/
theorem exec_ret_of_gt {s : State} (h : 16 < s.sp.toNat) : exec .ret s = .refused (.stackPointerUnreachable s.sp) := by
  have hne : ¬ s.sp = 0 := by bv_omega
  simp only [exec, execRet]
  rw [if_neg hne, dif_neg (by omega)]

/-- The three kinds of depth: none, an entry below it, and the depths that have no entry. -/
theorem sp_cases (d : BitVec 5) : d.toNat = 0 ∨ (∃ n : Fin 16, d.toNat = n.val + 1) ∨ 16 < d.toNat := by
  rcases h : d.toNat with - | m
  · exact .inl rfl
  · by_cases hm : m < 16
    · exact .inr (.inl ⟨⟨m, hm⟩, rfl⟩)
    · exact .inr (.inr (by omega))

/-- A return that completes found an entry, and went to it. -/
theorem exec_ret_next {s t : State} (h : exec .ret s = .next t) : ∃ n : Fin 16,
    s.sp.toNat = n.val + 1 ∧ t = (s.setSp (s.sp - 1)).setPc (s.readStack n) := by
  obtain h0 | ⟨n, hn⟩ | hgt := sp_cases s.sp
  · rw [exec_ret_empty h0] at h; cases h
  · rw [exec_ret_of_succ hn, Host.Outcome.next.injEq] at h
    exact ⟨n, hn, h.symm⟩
  · rw [exec_ret_of_gt hgt] at h; cases h

/-- Writing `PC` and `SP` changes the stack and `PC` only, and no entry of the stack. -/
theorem ret_changesOnly (s : State) (d : BitVec 5) (w : Word) : ChangesOnly [.pc, .stack] s ((s.setSp d).setPc w) := by
  refine ⟨fun p hp => ?_, rfl, rfl, rfl⟩
  cases p <;> simp [SamePart] at *

/-- `SP` above 0 counts down without wrapping. -/
theorem sp_pred_toNat {d : BitVec 5} {n : Nat} (h : d.toNat = n + 1) : (d - 1).toNat = n := by bv_omega

/-- Settles O26: at a depth of 1 to 16 the entry below is taken and stays; at depth 0 the handler raises its fault. -/
theorem retPopsReturnAddress : Obligations.RetPopsReturnAddress := by
  refine fun s => ⟨fun n hn => ?_, exec_ret_empty⟩
  exact ⟨_, exec_ret_of_succ hn, sp_pred_toNat hn, rfl, fun _ => rfl, ret_changesOnly ..⟩

/-- What changes only some parts twice over changes only those. -/
theorem ChangesOnly.trans {parts : List Part} {s t u : State} (h : ChangesOnly parts s t) (h' : ChangesOnly parts t u) :
    ChangesOnly parts s u := by
  obtain ⟨hp, hk, hopc, hfont⟩ := h
  obtain ⟨hp', hk', hopc', hfont'⟩ := h'
  refine ⟨fun p hnot => ?_, hk'.trans hk, hopc'.trans hopc, hfont'.trans hfont⟩
  have h1 := hp p hnot
  have h2 := hp' p hnot
  cases p <;> simp_all [SamePart]

/-- Settles O27: the call leaves the depth one higher, with the advanced `PC` in the entry that the return then takes. -/
theorem retUndoesCall : Obligations.RetUndoesCall := by
  intro nnn s t h
  obtain ⟨hlt, rfl⟩ := exec_call_next h
  have hdepth : (s.sp + 1).toNat = (⟨s.sp.toNat, hlt⟩ : Fin 16).val + 1 := sp_succ_toNat hlt
  refine ⟨_, exec_ret_of_succ hdepth, ?_, BitVec.add_sub_cancel .., (call_changesOnly ..).trans (ret_changesOnly ..)⟩
  rw [State.setPc_pc, State.setPc_readStack, State.setSp_readStack, State.writeStack_readStack, if_pos rfl]

/-! ### Skips on registers (R106, R107) -/

theorem exec_seReg (x y : Nibble) (s : State) : exec (.seReg x y) s = .next (skipIf (s.readV x == s.readV y) s) := rfl

theorem exec_sneReg (x y : Nibble) (s : State) : exec (.sneReg x y) s = .next (skipIf (s.readV x != s.readV y) s) := rfl

/-- Settles O29: both handlers are one skip, on the comparison and on its negation; a register is equal to itself. -/
theorem skipsOnRegisters : Obligations.SkipsOnRegisters := by
  refine fun x y q s => ⟨decodeWord_seReg x y q, decodeWord_sneReg x y q, ?_, ?_⟩
  · obtain ⟨t, hnext, hpc, hframe⟩ := skipIf_next (s.readV x == s.readV y) s
    simp only [beq_iff_eq] at hpc
    exact ⟨t, (exec_seReg x y s).trans hnext, hpc, by rintro rfl; rw [hpc, if_pos rfl], hframe⟩
  · obtain ⟨t, hnext, hpc, hframe⟩ := skipIf_next (s.readV x != s.readV y) s
    simp only [bne_iff_ne, ne_eq, ite_not] at hpc
    exact ⟨t, (exec_sneReg x y s).trans hnext, hpc, by rintro rfl; rw [hpc, if_pos rfl], hframe⟩

end Sys2Proof.Machine
end

section
/-! PROOFS. Logic, sums, differences and shifts (spec/42_alu.md, R124 to R131): the result, the flag, and the frame. -/

namespace Sys2Proof.Machine

/-! ### Logic (R124 to R126) -/

theorem exec_orReg (x y : Nibble) (s : State) :
    exec (.orReg x y) s = .next (s.writeV x (s.readV x ||| s.readV y)) := rfl

theorem exec_andReg (x y : Nibble) (s : State) :
    exec (.andReg x y) s = .next (s.writeV x (s.readV x &&& s.readV y)) := rfl

theorem exec_xorReg (x y : Nibble) (s : State) :
    exec (.xorReg x y) s = .next (s.writeV x (s.readV x ^^^ s.readV y)) := rfl

/-- Settles O33: each handler is one register write, of the bitwise combination. -/
theorem logicOnRegisters : Obligations.LogicOnRegisters := by
  refine fun x y s => ⟨decodeWord_orReg x y, decodeWord_andReg x y, decodeWord_xorReg x y, ?_, ?_, ?_⟩
  · obtain ⟨t, hnext, hval, hframe⟩ := writeV_next s x (s.readV x ||| s.readV y)
    exact ⟨t, (exec_orReg x y s).trans hnext, hframe, fun j => by rw [hval, BitVec.getLsbD_or]⟩
  · obtain ⟨t, hnext, hval, hframe⟩ := writeV_next s x (s.readV x &&& s.readV y)
    exact ⟨t, (exec_andReg x y s).trans hnext, hframe, fun j => by rw [hval, BitVec.getLsbD_and]⟩
  · obtain ⟨t, hnext, hval, hframe⟩ := writeV_next s x (s.readV x ^^^ s.readV y)
    exact ⟨t, (exec_xorReg x y s).trans hnext, hframe, fun j => by rw [hval, BitVec.getLsbD_xor]⟩

/-! ### A result and its flag (R120) -/

/-- A handler that ends in a result and its flag completes, VF holds the flag in every case, the destination holds the result
unless it is VF, and nothing else changes. -/
theorem writeResult_next (s : State) (x : Nibble) (b : Byte) (flag : Bool) :
    ∃ t, (.next (s.writeResult x b flag) : Result) = .next t ∧ t.readV 0xF = flagByte flag ∧
      (x ≠ 0xF → t.readV x = b) ∧ ChangesOnlyRegs (fun r => r = x ∨ r = 0xF) s t := by
  refine ⟨_, rfl, ?_, fun hx => ?_, writeResult_changesOnly ..⟩
  · rw [State.writeResult_readV, if_pos (show (0xF : Nibble) = vf from rfl)]
  · rw [State.writeResult_readV, if_neg (show ¬ x = vf from hx), if_pos rfl]

theorem flagByte_decide (p : Prop) [Decidable p] : flagByte (decide p) = if p then 1 else 0 := by
  simp [flagByte]

/-! ### Sums and differences (R127, R128, R130) -/

theorem exec_addReg (x y : Nibble) (s : State) : exec (.addReg x y) s =
    .next (s.writeResult x (s.readV x + s.readV y) (carryOf (s.readV x) (s.readV y))) := rfl

theorem exec_subReg (x y : Nibble) (s : State) : exec (.subReg x y) s =
    .next (s.writeResult x (s.readV x - s.readV y) (greaterOf (s.readV x) (s.readV y))) := rfl

theorem exec_subn (x y : Nibble) (s : State) : exec (.subn x y) s =
    .next (s.writeResult x (s.readV y - s.readV x) (greaterOf (s.readV y) (s.readV x))) := rfl

theorem byte_sub_toNat (a b : Byte) : (a - b).toNat = (256 + a.toNat - b.toNat) % 256 := by
  have hb := b.isLt
  rw [BitVec.toNat_sub]
  omega

/-- Settles O34: the sum is the result and the carry its flag. -/
theorem addSetsCarry : Obligations.AddSetsCarry := by
  refine fun x y s => ⟨decodeWord_addReg x y, ?_⟩
  obtain ⟨t, hnext, hflag, hval, hframe⟩ :=
    writeResult_next s x (s.readV x + s.readV y) (carryOf (s.readV x) (s.readV y))
  exact ⟨t, (exec_addReg x y s).trans hnext, by rw [hflag, carryOf, flagByte_decide],
    fun hx => by rw [hval hx, BitVec.toNat_add], hframe⟩

/-- A difference and its strict comparison, whichever register is the minuend. -/
theorem difference_next (s : State) (x : Nibble) (a b : Byte) :
    ∃ t, (.next (s.writeResult x (a - b) (greaterOf a b)) : Result) = .next t ∧
      t.readV 0xF = (if b.toNat < a.toNat then 1 else 0) ∧
      (x ≠ 0xF → (t.readV x).toNat = (256 + a.toNat - b.toNat) % 256) ∧
      ChangesOnlyRegs (fun r => r = x ∨ r = 0xF) s t := by
  obtain ⟨t, hnext, hflag, hval, hframe⟩ := writeResult_next s x (a - b) (greaterOf a b)
  exact ⟨t, hnext, by rw [hflag, greaterOf, flagByte_decide], fun hx => by rw [hval hx, byte_sub_toNat], hframe⟩

/-- Settles O35: both handlers are one difference, with the operands exchanged. -/
theorem subtractSetsStrictFlag : Obligations.SubtractSetsStrictFlag := by
  refine fun x y s => ⟨decodeWord_subReg x y, decodeWord_subn x y, ?_, ?_⟩
  · simpa only [exec_subReg] using difference_next s x (s.readV x) (s.readV y)
  · simpa only [exec_subn] using difference_next s x (s.readV y) (s.readV x)

/-! ### Shifts (R129, R131) -/

theorem exec_shr (x : Nibble) (s : State) :
    exec (.shr x) s = .next (s.writeResult x (s.readV x >>> 1) (lowBitOf (s.readV x))) := rfl

theorem exec_shl (x : Nibble) (s : State) :
    exec (.shl x) s = .next (s.writeResult x (s.readV x <<< 1) (highBitOf (s.readV x))) := rfl

theorem flagByte_toNat (b : Bool) : (flagByte b).toNat = b.toNat := by cases b <;> rfl

theorem lowBitOf_toNat (a : Byte) : (lowBitOf a).toNat = a.toNat % 2 := by
  rw [lowBitOf, BitVec.getLsbD, Nat.toNat_testBit, pow_zero, Nat.div_one]

/-- Bit 7 is the top bit of a byte, so no mask is needed. -/
theorem highBitOf_toNat (a : Byte) : (highBitOf a).toNat = a.toNat / 128 := by
  have ha := a.isLt
  rw [highBitOf, BitVec.getLsbD, Nat.toNat_testBit]
  omega

theorem byte_shiftRight_one_toNat (a : Byte) : (a >>> 1).toNat = a.toNat / 2 := by
  rw [BitVec.toNat_ushiftRight, Nat.shiftRight_one]

theorem byte_shiftLeft_one_toNat (a : Byte) : (a <<< 1).toNat = 2 * a.toNat % 256 := by
  rw [BitVec.toNat_shiftLeft, Nat.shiftLeft_eq, Nat.mul_comm, pow_one]

/-- Settles O36: the shifted byte is the result and the bit shifted out its flag. -/
theorem shiftsSetShiftedOutBit : Obligations.ShiftsSetShiftedOutBit := by
  refine fun x y s => ⟨decodeWord_shr x y, decodeWord_shl x y, ?_, ?_⟩
  · obtain ⟨t, hnext, hflag, hval, hframe⟩ := writeResult_next s x (s.readV x >>> 1) (lowBitOf (s.readV x))
    exact ⟨t, (exec_shr x s).trans hnext, by rw [hflag, flagByte_toNat, lowBitOf_toNat],
      fun hx => by rw [hval hx, byte_shiftRight_one_toNat], hframe⟩
  · obtain ⟨t, hnext, hflag, hval, hframe⟩ := writeResult_next s x (s.readV x <<< 1) (highBitOf (s.readV x))
    exact ⟨t, (exec_shl x s).trans hnext, by rw [hflag, flagByte_toNat, highBitOf_toNat],
      fun hx => by rw [hval hx, byte_shiftLeft_one_toNat], hframe⟩

end Sys2Proof.Machine
end

section
/-! PROOFS. The index register and memory (spec/43_index_mem.md, spec/20_memory.md), and the loader that fills memory
(spec/70_reset_and_hazards.md). -/

namespace Sys2Proof.Machine

/-! ### Index arithmetic (R142, R143) -/

theorem exec_addI (x : Nibble) (s : State) : exec (.addI x) s = .next (s.setI (s.i + wordOf (s.readV x))) := rfl

theorem exec_ldF (x : Nibble) (s : State) :
    exec (.ldF x) s = .next (s.setI (BitVec.ofNat 16 (Config.fontBase + 5 * (s.readV x).toNat))) := rfl

/-- The last glyph address, for Vx = 255, still fits in 16 bits. -/
theorem glyphAddress_toNat (b : Byte) :
    (BitVec.ofNat 16 (Config.fontBase + 5 * b.toNat)).toNat = 0x050 + 5 * b.toNat := by
  have hb := b.isLt
  rw [BitVec.toNat_ofNat]
  exact Nat.mod_eq_of_lt (by simp only [Config.fontBase]; omega)

/-- Settles O39: both handlers are one write of `I`. -/
theorem indexArithmetic : Obligations.IndexArithmetic := by
  refine fun x s => ⟨decodeWord_addI x, decodeWord_ldF x, ?_, ?_⟩
  · obtain ⟨t, hnext, hi, hframe⟩ := setI_next s (s.i + wordOf (s.readV x))
    exact ⟨t, (exec_addI x s).trans hnext, by rw [hi, BitVec.toNat_add, wordOf_toNat], hframe⟩
  · obtain ⟨t, hnext, hi, hframe⟩ := setI_next s (BitVec.ofNat 16 (Config.fontBase + 5 * (s.readV x).toNat))
    exact ⟨t, (exec_ldF x s).trans hnext, by rw [hi, glyphAddress_toNat], hframe⟩

/-! ### The bounds of an access through `I` (R55, R140) -/

theorem inMemory_digits (s : State) : inMemory s.base 3 = true ↔ s.i.toNat ≤ 0xFFD := by
  rw [inMemory_iff, State.base]
  omega

theorem inMemory_block (s : State) (x : Nibble) :
    inMemory s.base (blockLength x) = true ↔ s.i.toNat + x.toNat ≤ 0xFFF := by
  rw [inMemory_iff, State.base, blockLength]
  omega

/-! ### Fx33 (R144) -/

theorem exec_ldB_of_le (x : Nibble) {s : State} (h : s.i.toNat ≤ 0xFFD) :
    exec (.ldB x) s = .next (s.storeBytes s.base (digitsOf (s.readV x))) := by
  simp only [exec, execLdB]
  rw [if_pos ((inMemory_digits s).mpr h)]

theorem exec_ldB_of_gt (x : Nibble) {s : State} (h : 0xFFD < s.i.toNat) : exec (.ldB x) s =
    .fault (.memWriteOutOfBounds { code := 3, fpc := s.pc - 2, opcode := s.opc, value := s.i } s) := by
  simp only [exec, execLdB]
  rw [if_neg (by rw [inMemory_digits]; omega)]
  rfl

theorem exec_ldB_next {x : Nibble} {s t : State} (h : exec (.ldB x) s = .next t) :
    s.i.toNat ≤ 0xFFD ∧ t = s.storeBytes s.base (digitsOf (s.readV x)) := by
  by_cases hle : s.i.toNat ≤ 0xFFD
  · rw [exec_ldB_of_le x hle, Host.Outcome.next.injEq] at h
    exact ⟨hle, h.symm⟩
  · rw [exec_ldB_of_gt x (by omega)] at h; cases h

/-- A stored range holds its bytes. -/
theorem State.storeBytes_load_inside (s : State) (a : Nat) {bs : List Byte} {k : Nat} (h : k < bs.length) :
    (s.storeBytes a bs).load (a + k) = bs[k] := by
  rw [State.storeBytes_load, dif_pos ⟨by omega, by omega⟩]
  simp

/-- Outside a stored range memory is as before. -/
theorem State.storeBytes_load_outside (s : State) {a b : Nat} {bs : List Byte} (h : b < a ∨ a + bs.length ≤ b) :
    (s.storeBytes a bs).load b = s.load b := by
  rw [State.storeBytes_load, dif_neg (by omega)]

theorem digitsOf_length (b : Byte) : (digitsOf b).length = 3 := rfl

/-- A decimal digit is small enough for a byte. -/
theorem ofNat_byte_toNat {n : Nat} (h : n < 256) : (BitVec.ofNat 8 n).toNat = n := by
  rw [BitVec.toNat_ofNat]
  exact Nat.mod_eq_of_lt h

/-- After the digits are stored, their three addresses hold hundreds, tens and units. -/
theorem State.storeDigits_load (s : State) (a : Nat) (b : Byte) :
    ((s.storeBytes a (digitsOf b)).load a).toNat = b.toNat / 100 ∧
      ((s.storeBytes a (digitsOf b)).load (a + 1)).toNat = b.toNat / 10 % 10 ∧
      ((s.storeBytes a (digitsOf b)).load (a + 2)).toNat = b.toNat % 10 := by
  have hb := b.isLt
  have hdigit {k : Nat} (hk : k < 3) : (s.storeBytes a (digitsOf b)).load (a + k) = (digitsOf b)[k]'hk :=
    s.storeBytes_load_inside a hk
  refine ⟨?_, ?_, ?_⟩
  · exact (congrArg BitVec.toNat (hdigit (k := 0) (by decide))).trans (ofNat_byte_toNat (by omega))
  · exact (congrArg BitVec.toNat (hdigit (k := 1) (by decide))).trans (ofNat_byte_toNat (by omega))
  · exact (congrArg BitVec.toNat (hdigit (k := 2) (by decide))).trans (ofNat_byte_toNat (by omega))

/-- Settles O40: within bounds the three digits are stored in order; past them the handler raises its fault. -/
theorem bcdStoresDigits : Obligations.BcdStoresDigits := by
  refine fun x s => ⟨decodeWord_ldB x, fun hle => ?_, exec_ldB_of_gt x⟩
  obtain ⟨hhundreds, htens, hunits⟩ := s.storeDigits_load s.base (s.readV x)
  exact ⟨_, exec_ldB_of_le x hle, storeBytes_changesOnly .., hhundreds, htens, hunits,
    fun a ha => State.storeBytes_load_outside _ ha⟩

/-! ### Fx55 (R145) -/

theorem exec_storeRegs_of_le {x : Nibble} {s : State} (h : s.i.toNat + x.toNat ≤ 0xFFF) :
    exec (.storeRegs x) s = .next (s.storeBytes s.base (s.block x)) := by
  simp only [exec, execStoreRegs]
  rw [if_pos ((inMemory_block s x).mpr h)]

theorem exec_storeRegs_of_gt {x : Nibble} {s : State} (h : 0xFFF < s.i.toNat + x.toNat) : exec (.storeRegs x) s =
    .fault (.memWriteOutOfBounds { code := 3, fpc := s.pc - 2, opcode := s.opc, value := s.i } s) := by
  simp only [exec, execStoreRegs]
  rw [if_neg (by rw [inMemory_block]; omega)]
  rfl

theorem exec_storeRegs_next {x : Nibble} {s t : State} (h : exec (.storeRegs x) s = .next t) :
    s.i.toNat + x.toNat ≤ 0xFFF ∧ t = s.storeBytes s.base (s.block x) := by
  by_cases hle : s.i.toNat + x.toNat ≤ 0xFFF
  · rw [exec_storeRegs_of_le hle, Host.Outcome.next.injEq] at h
    exact ⟨hle, h.symm⟩
  · rw [exec_storeRegs_of_gt (by omega)] at h; cases h

/-- After the block is stored, byte `k` of its range is `V[k]`. -/
theorem State.storeBlock_load (s : State) (a : Nat) {x k : Nibble} (h : k.toNat ≤ x.toNat) :
    (s.storeBytes a (s.block x)).load (a + k.toNat) = s.readV k := by
  rw [State.storeBytes_load_inside _ _ (by rw [State.block_length]; omega), State.block_getElem, BitVec.ofNat_toNat,
    BitVec.setWidth_eq]

/-- Settles O41: within bounds the block is stored; past them the handler raises its fault. -/
theorem storeRegistersStoresBlock : Obligations.StoreRegistersStoresBlock := by
  refine fun x s => ⟨decodeWord_storeRegs x, fun hle => ?_, exec_storeRegs_of_gt⟩
  refine ⟨_, exec_storeRegs_of_le hle, storeBytes_changesOnly .., fun k hk => s.storeBlock_load _ hk, fun a ha => ?_⟩
  exact State.storeBytes_load_outside _ (by rw [State.block_length]; omega)

/-- Settles O22: with `I` at `PC` the next word lies in the range just stored, and its bytes are V0 and V1. -/
theorem storedBytesAreFetchedNext : Obligations.StoredBytesAreFetchedNext := by
  intro x s t hx hi h
  obtain ⟨hle, rfl⟩ := exec_storeRegs_next h
  have hx1 : 1 ≤ x.toNat := Nat.one_le_iff_ne_zero.mpr fun h0 => hx (BitVec.eq_of_toNat_eq h0)
  have h0 := s.storeBlock_load s.base (x := x) (k := 0) (Nat.zero_le _)
  have h1 := s.storeBlock_load s.base (x := x) (k := 1) hx1
  rw [fetchWord_of_le (by rw [State.storeBytes_pc, ← hi]; omega), State.storeBytes_pc, ← hi]
  exact congrArg some (congrArg₂ (· ++ ·) h0 h1)

/-! ### Fx65 (R146) -/

theorem exec_loadRegs_of_le {x : Nibble} {s : State} (h : s.i.toNat + x.toNat ≤ 0xFFF) :
    exec (.loadRegs x) s = .next (s.writeBlock 0 (s.loadBytes s.base (blockLength x))) := by
  simp only [exec, execLoadRegs]
  rw [if_pos ((inMemory_block s x).mpr h)]

theorem exec_loadRegs_of_gt {x : Nibble} {s : State} (h : 0xFFF < s.i.toNat + x.toNat) : exec (.loadRegs x) s =
    .fault (.memReadOutOfBounds { code := 2, fpc := s.pc - 2, opcode := s.opc, value := s.i } s) := by
  simp only [exec, execLoadRegs]
  rw [if_neg (by rw [inMemory_block]; omega)]
  rfl

theorem exec_loadRegs_next {x : Nibble} {s t : State} (h : exec (.loadRegs x) s = .next t) :
    t = s.writeBlock 0 (s.loadBytes s.base (blockLength x)) := by
  by_cases hle : s.i.toNat + x.toNat ≤ 0xFFF
  · rw [exec_loadRegs_of_le hle, Host.Outcome.next.injEq] at h
    exact h.symm
  · rw [exec_loadRegs_of_gt (by omega)] at h; cases h

/-- A loaded block holds the bytes of its range, and the registers above it are as before. -/
theorem State.loadBlock_readV (s : State) (a : Nat) (x r : Nibble) :
    (s.writeBlock 0 (s.loadBytes a (blockLength x))).readV r =
      if r.toNat ≤ x.toNat then s.load (a + r.toNat) else s.readV r := by
  have hx := x.isLt
  rw [State.writeBlock_readV _ _ _ (by rw [State.loadBytes_length, blockLength]; omega)]
  by_cases hr : r.toNat ≤ x.toNat
  · rw [if_pos hr, dif_pos ⟨Nat.zero_le _, by rw [State.loadBytes_length, blockLength]; omega⟩, State.loadBytes_getElem,
      Nat.sub_zero]
  · rw [if_neg hr, dif_neg (by rw [State.loadBytes_length, blockLength]; omega)]

/-- Loading a block changes registers only. -/
theorem writeBlock_changesOnly (s : State) (k : Nat) (bs : List Byte) : ChangesOnly [.regs] s (s.writeBlock k bs) := by
  refine ⟨fun p hp => ?_, by simp, by simp, by simp⟩
  cases p <;> simp [SamePart] at *

/-- Settles O42: within bounds the block is loaded; past them the handler raises its fault. -/
theorem loadRegistersLoadsBlock : Obligations.LoadRegistersLoadsBlock := by
  refine fun x s => ⟨decodeWord_loadRegs x, fun hle => ?_, exec_loadRegs_of_gt⟩
  refine ⟨_, exec_loadRegs_of_le hle, fun k hk => ?_, writeBlock_changesOnly .., fun r hr => ?_⟩
  · rw [State.loadBlock_readV, if_pos hk]
  · rw [State.loadBlock_readV, if_neg hr]

/-- Settles O43: the load reads back from the same `I` what the store put there, and above the block nothing was touched. -/
theorem loadAfterStoreRestoresRegisters : Obligations.LoadAfterStoreRestoresRegisters := by
  intro x s t w h hw
  obtain ⟨hle, rfl⟩ := exec_storeRegs_next h
  have hi : (s.storeBytes s.base (s.block x)).i = s.i := State.storeBytes_i ..
  have hbase : ({ s.storeBytes s.base (s.block x) with v := w } : State).base = s.base := congrArg BitVec.toNat hi
  refine ⟨_, exec_loadRegs_of_le (by rw [hi]; exact hle), fun k => ?_, by rw [State.writeBlock_i, hi]⟩
  rw [State.loadBlock_readV, hbase]
  by_cases hk : k.toNat ≤ x.toNat
  · rw [if_pos hk]
    exact s.storeBlock_load _ hk
  · rw [if_neg hk]
    exact hw k (by omega)

/-! ### One byte, and the loader (R57, R59, R65) -/

/-- Settles O21: the read and the frame of a store, and the canonical form. -/
theorem storeChangesExactlyOneByte : Obligations.StoreChangesExactlyOneByte := fun s a v =>
  ⟨by rw [State.store_load, if_pos rfl], fun b hb => by rw [State.store_load, if_neg hb], State.store_keeps_wf⟩

/-- Settles O19: the loader stores the image from 0x200 up, or nothing at all. -/
theorem loaderPlacesImage : Obligations.LoaderPlacesImage := by
  refine fun s image => ⟨fun hlong => ?_, fun hfits => ?_⟩
  · rw [State.loadRom, if_neg (Nat.not_le.mpr hlong)]
  · refine ⟨_, by rw [State.loadRom, if_pos hfits], storeBytes_changesOnly .., fun j hj => ?_, fun a ha => ?_⟩
    · exact s.storeBytes_load_inside 0x200 hj
    · exact s.storeBytes_load_outside ha

end Sys2Proof.Machine
end

section
/-! PROOFS. The display (spec/44_display.md): the clear, the draw of a sprite, and the same draw twice. -/

namespace Sys2Proof.Machine

/-! ### The clear (R151) -/

theorem exec_cls (s : State) : exec .cls s = .next (s.setFb blankFrame) := rfl

/-- Replacing the display changes the display only. -/
theorem setFb_changesOnly (s : State) (f : Frame) : ChangesOnly [.display] s (s.setFb f) := by
  refine ⟨fun p hp => ?_, rfl, rfl, rfl⟩
  cases p <;> simp [SamePart] at *

/-- Settles O44: the handler replaces the display by the blank one. -/
theorem clearDisplay : Obligations.ClearDisplay := fun p q s =>
  ⟨decodeWord_cls p q, _, exec_cls s, cellAt_blankFrame, setFb_changesOnly ..⟩

/-! ### The draw (R152) -/

/-- The bit of the sprite of Dxyn at a cell of the display. -/
def State.spriteAt (s : State) (x y n : Nibble) (r c : Nat) : Bool :=
  spriteBit (s.loadBytes s.base n.toNat) (s.spriteRow y) (s.spriteColumn x) r c

/-- The display and the collision that Dxyn computes. -/
def State.drawOf (s : State) (x y n : Nibble) : Frame × Bool :=
  drawRows (s.fb, false) (s.spriteRow y) (s.spriteColumn x) (s.loadBytes s.base n.toNat)

theorem cellAt_drawOf (s : State) (x y n : Nibble) (r c : Nat) : cellAt (s.drawOf x y n).1 r c =
    (cellAt s.fb r c ^^ decide (r < 32 ∧ c < 64 ∧ s.spriteAt x y n r c = true)) := by
  rw [State.drawOf, cellAt_drawRows]
  congr 2
  exact propext ⟨fun ⟨hbit, hr, hc⟩ => ⟨hr, hc, hbit⟩, fun ⟨hr, hc, hbit⟩ => ⟨hbit, hr, hc⟩⟩

theorem collision_drawOf (s : State) (x y n : Nibble) : (s.drawOf x y n).2 = true ↔
    ∃ r c, s.spriteAt x y n r c = true ∧ cellAt s.fb r c = true := by
  rw [State.drawOf, collision_drawRows]
  simp only [Bool.false_eq_true, false_or]
  rfl

/-- A sprite that meets no cell that is on reports no collision. -/
theorem no_collision_drawOf {s : State} {x y n : Nibble}
    (h : ∀ r c, cellAt s.fb r c = true → s.spriteAt x y n r c = false) : (s.drawOf x y n).2 = false := by
  rw [Bool.eq_false_iff, ne_eq, collision_drawOf]
  rintro ⟨r, c, hbit, hcell⟩
  exact Bool.false_ne_true ((h r c hcell).symm.trans hbit)

theorem inMemory_sprite (s : State) (n : Nibble) :
    inMemory s.base n.toNat = true ↔ n = 0 ∨ s.i.toNat + n.toNat ≤ 0x1000 := by
  rw [inMemory_iff, State.base]
  exact or_congr_left (BitVec.toNat_eq (x := n) (y := 0)).symm

theorem exec_drw_of_inMemory {x y n : Nibble} {s : State} (h : n = 0 ∨ s.i.toNat + n.toNat ≤ 0x1000) :
    exec (.drw x y n) s = .next ((s.setFb (s.drawOf x y n).1).setFlag (s.drawOf x y n).2) := by
  simp only [exec, execDrw]
  rw [if_pos ((inMemory_sprite s n).mpr h)]
  rfl

theorem exec_drw_of_gt {x y n : Nibble} {s : State} (hn : n ≠ 0) (h : 0x1000 < s.i.toNat + n.toNat) :
    exec (.drw x y n) s =
      .fault (.memReadOutOfBounds { code := 2, fpc := s.pc - 2, opcode := s.opc, value := s.i } s) := by
  simp only [exec, execDrw]
  rw [if_neg (by rw [inMemory_sprite]; exact not_or.mpr ⟨hn, by omega⟩)]
  rfl

theorem exec_drw_next {x y n : Nibble} {s t : State} (h : exec (.drw x y n) s = .next t) :
    (n = 0 ∨ s.i.toNat + n.toNat ≤ 0x1000) ∧ t = (s.setFb (s.drawOf x y n).1).setFlag (s.drawOf x y n).2 := by
  by_cases hin : n = 0 ∨ s.i.toNat + n.toNat ≤ 0x1000
  · rw [exec_drw_of_inMemory hin, Host.Outcome.next.injEq] at h
    exact ⟨hin, h.symm⟩
  · obtain ⟨hn, hgt⟩ := not_or.mp hin
    rw [exec_drw_of_gt hn (by omega)] at h; cases h

/-- A draw changes the display and VF only. -/
theorem draw_changesOnly (s : State) (f : Frame) (flag : Bool) :
    ChangesOnly [.display, .regs] s ((s.setFb f).setFlag flag) := by
  refine ⟨fun p hp => ?_, rfl, rfl, rfl⟩
  cases p <;> simp [SamePart, State.setFlag] at *

/-- VF holds the flag written, and every other register is as before. -/
theorem State.setFlag_readV (s : State) (flag : Bool) (r : Nibble) :
    (s.setFlag flag).readV r = if r = 0xF then flagByte flag else s.readV r := State.writeV_readV ..

/-- Settles O45: every cell is flipped under a set bit, and the collision is the flag; past the bounds the handler raises its
fault. -/
theorem drawFlipsSpriteCells : Obligations.DrawFlipsSpriteCells := by
  refine fun x y n s => ⟨decodeWord_drw x y n, fun hin => ?_, exec_drw_of_gt⟩
  refine ⟨_, exec_drw_of_inMemory hin, cellAt_drawOf s x y n, ?_, fun hnone => ?_, draw_changesOnly .., fun r hr => ?_⟩
  · rintro ⟨r, c, hcell, hbit⟩
    have hcoll : (s.drawOf x y n).2 = true := (collision_drawOf s x y n).mpr ⟨r, c, hbit, hcell⟩
    rw [State.setFlag_readV, if_pos rfl, hcoll]
    rfl
  · rw [State.setFlag_readV, if_pos rfl, no_collision_drawOf hnone]
    rfl
  · rw [State.setFlag_readV, if_neg hr, State.setFb_readV]

/-! ### The same draw twice (R153) -/

theorem State.loadBytes_congr {s t : State} (h : ∀ a, t.load a = s.load a) (a n : Nat) :
    t.loadBytes a n = s.loadBytes a n := by
  induction n generalizing a with
  | zero => rfl
  | succ n ih => rw [State.loadBytes, State.loadBytes, h, ih]

/-- The sprite depends on `I`, on memory and on the two coordinate registers only. -/
theorem State.spriteAt_congr {s t : State} {x y : Nibble} (n : Nibble) (hi : t.i = s.i) (hx : t.readV x = s.readV x)
    (hy : t.readV y = s.readV y) (hmem : ∀ a, t.load a = s.load a) : t.spriteAt x y n = s.spriteAt x y n := by
  funext r c
  rw [State.spriteAt, State.spriteAt, State.base, State.base, State.spriteRow, State.spriteRow, State.spriteColumn,
    State.spriteColumn, hi, hx, hy, State.loadBytes_congr hmem]

/-- A second draw at the same place flips every cell back. -/
theorem drawOf_drawOf {s t : State} {x y n : Nibble} (hfb : t.fb = (s.drawOf x y n).1)
    (hsprite : t.spriteAt x y n = s.spriteAt x y n) : (t.drawOf x y n).1 = s.fb := by
  refine frame_ext fun r c => ?_
  rw [cellAt_drawOf, hfb, cellAt_drawOf, hsprite, Bool.xor_assoc, Bool.xor_self, Bool.xor_false]

/-- After a draw onto a clear display the cells that are on lie under set bits, so a second draw hits every one of them. -/
theorem collision_drawOf_drawOf {s t : State} {x y n : Nibble} (hfb : t.fb = (s.drawOf x y n).1)
    (hsprite : t.spriteAt x y n = s.spriteAt x y n) (hclear : ∀ r c, cellAt s.fb r c = false) :
    (t.drawOf x y n).2 = true ↔ ∃ r c, cellAt (s.drawOf x y n).1 r c = true := by
  rw [collision_drawOf, hfb, hsprite]
  refine exists_congr fun r => exists_congr fun c => and_iff_right_of_imp fun hcell => ?_
  rw [cellAt_drawOf, hclear, Bool.false_xor, decide_eq_true_eq] at hcell
  exact hcell.2.2

theorem flagByte_eq_one_iff (b : Bool) : flagByte b = 1 ↔ b = true := by cases b <;> decide

/-- Settles O46: the second draw finds the sprite and the place of the first. -/
theorem drawTwiceRestoresDisplay : Obligations.DrawTwiceRestoresDisplay := by
  intro x y n s t h t' hplace
  obtain ⟨hin, rfl⟩ := exec_drw_next h
  have hsame : t'.i = s.i ∧ t'.fb = (s.drawOf x y n).1 ∧ t'.spriteAt x y n = s.spriteAt x y n := by
    obtain rfl | ⟨hx, hy, rfl⟩ := hplace
    · exact ⟨rfl, rfl, State.spriteAt_congr n rfl rfl rfl fun _ => rfl⟩
    · have hreg {r : Nibble} (hr : r ≠ 0xF) :
          ((s.setFb (s.drawOf x y n).1).setFlag (s.drawOf x y n).2).readV r = s.readV r := by
        rw [State.setFlag_readV, if_neg hr, State.setFb_readV]
      exact ⟨rfl, rfl, State.spriteAt_congr n rfl (hreg hx) (hreg hy) fun _ => rfl⟩
  obtain ⟨hi, hfb, hsprite⟩ := hsame
  refine ⟨_, exec_drw_of_inMemory (by rw [hi]; exact hin), drawOf_drawOf hfb hsprite, fun hclear => ⟨?_, ?_⟩⟩
  · have hnone : ∀ r c, cellAt s.fb r c = true → s.spriteAt x y n r c = false := fun r c hcell =>
      absurd ((hclear r c).symm.trans hcell) Bool.false_ne_true
    rw [State.setFlag_readV, if_pos rfl, no_collision_drawOf hnone]
    rfl
  · rw [State.setFlag_readV, if_pos rfl, flagByte_eq_one_iff]
    exact collision_drawOf_drawOf hfb hsprite hclear

end Sys2Proof.Machine
end

section
/-! PROOFS. Setting the timers, the random byte, and the keys (spec/45_timer_key_rnd.md). -/

namespace Sys2Proof.Machine

/-! ### Setting the timers (R162, R163) -/

theorem exec_ldDtVx (x : Nibble) (s : State) : exec (.ldDtVx x) s = .next (s.setDt (s.readV x)) := rfl

theorem exec_ldStVx (x : Nibble) (s : State) : exec (.ldStVx x) s = .next (s.setSt (s.readV x)) := rfl

/-- Setting the delay timer changes it only. -/
theorem setDt_changesOnly (s : State) (b : Byte) : ChangesOnly [.delay] s (s.setDt b) := by
  refine ⟨fun p hp => ?_, rfl, rfl, rfl⟩
  cases p <;> simp [SamePart] at *

/-- Setting the sound timer changes it only. -/
theorem setSt_changesOnly (s : State) (b : Byte) : ChangesOnly [.sound] s (s.setSt b) := by
  refine ⟨fun p hp => ?_, rfl, rfl, rfl⟩
  cases p <;> simp [SamePart] at *

/-- Settles O48: each handler is one write of a timer, and the tick after it takes both timers down. -/
theorem setTimers : Obligations.SetTimers := by
  refine ⟨fun x s => ⟨decodeWord_ldDtVx x, decodeWord_ldStVx x, ⟨_, exec_ldDtVx x s, rfl, setDt_changesOnly ..⟩,
    _, exec_ldStVx x s, rfl, setSt_changesOnly ..⟩, fun x s => ⟨fun hfetch => ?_, fun hfetch => ?_⟩⟩
  · have hexec := exec_ldDtVx x (s.advance (0xF#4 ++ x ++ 0x15#8))
    rw [← decodeWord_ldDtVx x] at hexec
    exact ⟨_, step_of_exec_next hfetch hexec, State.tick_dt_toNat _, State.tick_st_toNat _⟩
  · have hexec := exec_ldStVx x (s.advance (0xF#4 ++ x ++ 0x18#8))
    rw [← decodeWord_ldStVx x] at hexec
    exact ⟨_, step_of_exec_next hfetch hexec, State.tick_st_toNat _, State.tick_dt_toNat _⟩

/-! ### The random byte (R164) -/

theorem exec_rnd (x : Nibble) (kk : Byte) (s : State) :
    exec (.rnd x kk) s = .next (s.advanceRnd.writeV x (s.rnd &&& kk)) := rfl

/-- A register write beside a new random input changes the registers and the random input only. -/
theorem setRnd_writeV_changesOnly (s : State) (bytes : List Byte) (n : Nat) (x : Nibble) (b : Byte) :
    ChangesOnly [.regs, .random] s ((s.setRnd bytes n).writeV x b) := by
  refine ⟨fun p hp => ?_, rfl, rfl, rfl⟩
  cases p <;> simp [SamePart] at *

/-- A masked byte has no bit outside the mask. -/
theorem and_and_not_mask (b kk : Byte) : b &&& kk &&& ~~~kk = 0 := by
  rw [BitVec.and_assoc, BitVec.and_not_self]
  exact BitVec.and_zero

/-- Settles O49: the byte is the sequence's head or a free value, and the mask is applied to it. -/
theorem randomByteIsMasked : Obligations.RandomByteIsMasked := by
  refine fun x kk s => ⟨decodeWord_rnd x kk, _, exec_rnd x kk s, ?_, ?_, ?_, ?_, ?_⟩
  · rw [State.writeV_readV, if_pos rfl, and_and_not_mask]
  · intro b rest hseq
    obtain ⟨b', rest', hseq', hrnd, hadv⟩ | ⟨hseq', -⟩ := s.rnd_cases
    · obtain ⟨rfl, rfl⟩ := List.cons.inj (hseq.symm.trans hseq')
      rw [State.writeV_readV, if_pos rfl, hrnd, hadv]
      exact ⟨rfl, rfl, rfl⟩
    · cases hseq.symm.trans hseq'
  · intro hseq
    obtain ⟨b, rest, hseq', -⟩ | ⟨-, hrnd, hadv⟩ := s.rnd_cases
    · cases hseq.symm.trans hseq'
    · rw [State.writeV_readV, if_pos rfl, hrnd, hadv]
      exact ⟨rfl, rfl, rfl⟩
  · intro r hr
    obtain ⟨bytes, n, hadv⟩ := s.advanceRnd_eq
    rw [State.writeV_readV, if_neg hr, hadv, State.setRnd_readV]
  · obtain ⟨bytes, n, hadv⟩ := s.advanceRnd_eq
    rw [hadv]
    exact setRnd_writeV_changesOnly ..

/-! ### The key skips (R165, R166) -/

theorem exec_skp_of_lt {x : Nibble} {s : State} (h : (s.readV x).toNat < 16) :
    exec (.skp x) s = .next (skipIf s.k[(s.readV x).toNat] s) := by
  simp only [exec, execSkp, withKey]
  rw [dif_pos h]

theorem exec_sknp_of_lt {x : Nibble} {s : State} (h : (s.readV x).toNat < 16) :
    exec (.sknp x) s = .next (skipIf (!s.k[(s.readV x).toNat]) s) := by
  simp only [exec, execSknp, withKey]
  rw [dif_pos h]

/-- A skip on the negation of a condition. -/
theorem skipIf_not_next (c : Bool) (s : State) :
    ∃ t, (.next (skipIf (!c) s) : Result) = .next t ∧ t.pc = (if c then s.pc else s.pc + 2) ∧ ChangesOnly [.pc] s t := by
  cases c with
  | true => exact skipIf_next false s
  | false => exact skipIf_next true s

/-- The report of a key number above 15 (R171, R172). -/
def keyFault (x : Nibble) (s : State) : FaultInfo where
  code := 6
  fpc := s.pc - 2
  opcode := s.opc
  value := wordOf (s.readV x)

theorem exec_skp_of_gt {x : Nibble} {s : State} (h : 15 < (s.readV x).toNat) :
    exec (.skp x) s = .fault (.keyIndexOutOfRange (keyFault x s) s) := by
  simp only [exec, execSkp, withKey]
  rw [dif_neg (by omega)]
  rfl

theorem exec_sknp_of_gt {x : Nibble} {s : State} (h : 15 < (s.readV x).toNat) :
    exec (.sknp x) s = .fault (.keyIndexOutOfRange (keyFault x s) s) := by
  simp only [exec, execSknp, withKey]
  rw [dif_neg (by omega)]
  rfl

/-- A key test that completes is a skip or no skip. -/
theorem exec_skp_next {x : Nibble} {s t : State} (h : exec (.skp x) s = .next t) : ∃ c, t = skipIf c s := by
  by_cases hlt : (s.readV x).toNat < 16
  · rw [exec_skp_of_lt hlt, Host.Outcome.next.injEq] at h
    exact ⟨_, h.symm⟩
  · rw [exec_skp_of_gt (by omega)] at h; cases h

theorem exec_sknp_next {x : Nibble} {s t : State} (h : exec (.sknp x) s = .next t) : ∃ c, t = skipIf c s := by
  by_cases hlt : (s.readV x).toNat < 16
  · rw [exec_sknp_of_lt hlt, Host.Outcome.next.injEq] at h
    exact ⟨_, h.symm⟩
  · rw [exec_sknp_of_gt (by omega)] at h; cases h

/-- Settles O50: a key number below 16 leads to a skip on the key's level or on its negation, one above to the fault. -/
theorem keySkips : Obligations.KeySkips := by
  refine fun x q s => ⟨decodeWord_skp x q, decodeWord_sknp x q, fun hlt => ⟨?_, ?_⟩, fun hgt => ?_⟩
  · simpa only [exec_skp_of_lt hlt] using skipIf_next s.k[(s.readV x).toNat] s
  · simpa only [exec_sknp_of_lt hlt] using skipIf_not_next s.k[(s.readV x).toNat] s
  · exact ⟨keyFault x s, rfl, rfl, rfl, wordOf_toNat _, exec_skp_of_gt hgt, exec_sknp_of_gt hgt⟩

/-! ### The key poll (R167) -/

theorem leastPressed_eq_some {s : State} {j : Nat} (h : j < 16) (hj : s.k[j] = true)
    (hleast : ∀ l (hl : l < j), s.k[l] = false) : s.leastPressed = some j := by
  cases hpoll : s.leastPressed with
  | none => exact absurd ((State.leastPressed_none hpoll j h).symm.trans hj) Bool.false_ne_true
  | some k =>
    obtain ⟨hk, hkp, hkleast⟩ := State.leastPressed_some hpoll
    rcases Nat.lt_trichotomy k j with hlt | rfl | hgt
    · exact absurd ((hleast k hlt).symm.trans hkp) Bool.false_ne_true
    · rfl
    · exact absurd ((hkleast j hgt).symm.trans hj) Bool.false_ne_true

theorem leastPressed_eq_none {s : State} (h : ∀ j (h : j < 16), s.k[j] = false) : s.leastPressed = none := by
  cases hpoll : s.leastPressed with
  | none => rfl
  | some k =>
    obtain ⟨hk, hkp, -⟩ := State.leastPressed_some hpoll
    exact absurd ((h k hk).symm.trans hkp) Bool.false_ne_true

theorem exec_ldVxK_of_some (x : Nibble) {s : State} {k : Nat} (h : s.leastPressed = some k) :
    exec (.ldVxK x) s = .next (s.writeV x (BitVec.ofNat 8 k)) := by
  simp only [exec, execLdVxK, h]

theorem exec_ldVxK_of_none (x : Nibble) {s : State} (h : s.leastPressed = none) :
    exec (.ldVxK x) s = .next (s.setPc (s.pc - 2)) := by
  simp only [exec, execLdVxK, h]

/-- A poll writes its register or takes `PC` back by 2. -/
theorem exec_ldVxK_next {x : Nibble} {s t : State} (h : exec (.ldVxK x) s = .next t) :
    (∃ b, t = s.writeV x b) ∨ t = s.setPc (s.pc - 2) := by
  cases hpoll : s.leastPressed with
  | some k =>
    rw [exec_ldVxK_of_some x hpoll, Host.Outcome.next.injEq] at h
    exact .inl ⟨_, h.symm⟩
  | none =>
    rw [exec_ldVxK_of_none x hpoll, Host.Outcome.next.injEq] at h
    exact .inr h.symm

/-- Settles O51: the poll's answer is the least pressed key, or none. -/
theorem keyWaitPolls : Obligations.KeyWaitPolls := by
  refine fun x s => ⟨decodeWord_ldVxK x, fun j hj hpressed hleast => ?_, fun hnone => ?_⟩
  · obtain ⟨t, hnext, hval, hframe⟩ := writeV_next s x (BitVec.ofNat 8 j)
    have hexec := exec_ldVxK_of_some x (leastPressed_eq_some hj hpressed hleast)
    exact ⟨t, hexec.trans hnext, by rw [hval, ofNat_byte_toNat (by omega)], hframe⟩
  · obtain ⟨t, hnext, hpc, hframe⟩ := setPc_next s (s.pc - 2)
    exact ⟨t, (exec_ldVxK_of_none x (leastPressed_eq_none hnone)).trans hnext, hpc, hframe⟩

/-- The whole cycle of a waiting poll: `PC` goes forward by 2 and back by 2. -/
theorem step_waiting {s : State} {x : Nibble} (hfetch : s.fetchWord = some (0xF#4 ++ x ++ 0x0A#8))
    (hnone : ∀ j (h : j < 16), s.k[j] = false) :
    step s = .next ((s.setOpc (0xF#4 ++ x ++ 0x0A#8)).setPc s.pc).tick := by
  have hback : (s.pc + 2) - 2 = s.pc := BitVec.add_sub_cancel ..
  have hexec := exec_ldVxK_of_none x (s := s.advance (0xF#4 ++ x ++ 0x0A#8)) (leastPressed_eq_none hnone)
  rw [← decodeWord_ldVxK x, State.advance, State.setPc_pc, hback] at hexec
  exact step_of_exec_next hfetch hexec

/-- Settles O52: with `PC` and memory as before, the next fetch finds the same word. -/
theorem keyWaitStaysInPlace : Obligations.KeyWaitStaysInPlace := by
  intro x s hfetch hnone
  refine ⟨_, step_waiting hfetch hnone, fetchWord_congr rfl fun _ => rfl, rfl, State.tick_dt_toNat _,
    State.tick_st_toNat _, rfl, fun p hp => ?_⟩
  cases p <;> simp [SamePart, State.tick] at *

end Sys2Proof.Machine
end

section
/-! PROOFS. What holds of every instruction: when it faults, and which parts of the state it writes (spec/60_exceptions.md,
spec/10_state.md, spec/40_step.md). -/

namespace Sys2Proof.Machine

/-! ### The fault table (R171, R173) -/

/-- An outcome follows an entry of the fault table: the fault of a row on the untouched state, or completion where there is
no row. -/
def FollowsTable (s : State) (r : Result) : Option (FaultCause × Word) → Prop
  | some (cause, value) =>
    r = .fault (Fault.ofCause cause { code := cause.code, fpc := s.pc - 2, opcode := s.opc, value := value } s)
  | none => ∃ t, r = .next t

/-- A row with a condition: the condition decides between its fault and completion. -/
theorem followsTable_ite {s : State} {r : Result} {p : Prop} [Decidable p] {row : FaultCause × Word}
    (hfault : p → FollowsTable s r (some row)) (hnext : ¬ p → ∃ t, r = .next t) :
    FollowsTable s r (if p then some row else none) := by
  by_cases h : p
  · rw [if_pos h]
    exact hfault h
  · rw [if_neg h]
    exact hnext h

theorem exec_followsTable (i : Instr) {s : State} (hsp : s.sp.toNat ≤ 16) :
    FollowsTable s (exec i s) (faultTable i s) := by
  cases i with
  | ret =>
    refine followsTable_ite exec_ret_empty fun hne => ?_
    obtain h0 | ⟨n, hn⟩ | hgt := sp_cases s.sp
    · exact absurd h0 hne
    · exact ⟨_, exec_ret_of_succ hn⟩
    · omega
  | call nnn => exact followsTable_ite (exec_call_full nnn) fun h => ⟨_, exec_call_of_lt nnn (by omega)⟩
  | drw x y n =>
    have h0 : n.toNat = 0 ↔ n = 0 := (BitVec.toNat_eq (x := n) (y := 0)).symm
    refine followsTable_ite (fun h => exec_drw_of_gt (fun hn => ?_) (by omega)) fun h =>
      ⟨_, exec_drw_of_inMemory (by rw [← h0]; omega)⟩
    have := h0.mpr hn
    omega
  | skp x =>
    simp only [faultTable, BitVec.ofNat_toNat]
    exact followsTable_ite exec_skp_of_gt fun h => ⟨_, exec_skp_of_lt (by omega)⟩
  | sknp x =>
    simp only [faultTable, BitVec.ofNat_toNat]
    exact followsTable_ite exec_sknp_of_gt fun h => ⟨_, exec_sknp_of_lt (by omega)⟩
  | ldVxK x =>
    cases hpoll : s.leastPressed with
    | some k => exact ⟨_, exec_ldVxK_of_some x hpoll⟩
    | none => exact ⟨_, exec_ldVxK_of_none x hpoll⟩
  | ldB x => exact followsTable_ite (fun h => exec_ldB_of_gt x (by omega)) fun h => ⟨_, exec_ldB_of_le x (by omega)⟩
  | storeRegs x => exact followsTable_ite exec_storeRegs_of_gt fun h => ⟨_, exec_storeRegs_of_le (by omega)⟩
  | loadRegs x => exact followsTable_ite exec_loadRegs_of_gt fun h => ⟨_, exec_loadRegs_of_le (by omega)⟩
  | _ => exact ⟨_, rfl⟩

/-- Settles O11: each row of the table is the branch in which its handler raises, and every other branch completes. -/
theorem instructionsFaultExactlyByTheTable : Obligations.InstructionsFaultExactlyByTheTable := fun i _ hsp =>
  exec_followsTable i hsp

/-- With the depth in [0, 16] an instruction completes or faults (R10, R99). -/
theorem exec_next_or_fault (i : Instr) {s : State} (hsp : s.sp.toNat ≤ 16) :
    (∃ t, exec i s = .next t) ∨ ∃ f, exec i s = .fault f := by
  have h := exec_followsTable i hsp
  cases htable : faultTable i s with
  | none =>
    rw [htable] at h
    exact .inl h
  | some row =>
    rw [htable] at h
    exact .inr ⟨_, h⟩

/-- Settles O14: the fetch completes or faults, and so does the handler. -/
theorem noStepIsRefusedUnderInvariant : Obligations.NoStepIsRefusedUnderInvariant := by
  rintro s ⟨hsp, -⟩
  by_cases hpc : s.pc.toNat ≤ 0xFFE
  · obtain ⟨w, hfetch⟩ : ∃ w, s.fetchWord = some w := ⟨_, fetchWord_of_le hpc⟩
    rw [step_of_fetchWord hfetch]
    obtain ⟨t, ht⟩ | ⟨f, hf⟩ := exec_next_or_fault (decodeWord w) (s := s.advance w) hsp
    · exact .inl ⟨_, by rw [ht, finishCycle]⟩
    · exact .inr ⟨_, by rw [hf, finishCycle]⟩
  · exact .inr ⟨_, step_of_pc_gt (by omega)⟩

/-! ### The parts an instruction writes (R37, R98) -/

/-- The parts of the state that the handler of an instruction may write: the writers' column of R37, read by rows. -/
def partsWritten : Instr → List Part
  | .cls => [.display]
  | .ret | .call _ => [.pc, .stack]
  | .jp _ | .jpV0 _ | .seImm _ _ | .sneImm _ _ | .seReg _ _ | .sneReg _ _ | .skp _ | .sknp _ => [.pc]
  | .ldImm _ _ | .addImm _ _ | .ldReg _ _ | .orReg _ _ | .andReg _ _ | .xorReg _ _ | .addReg _ _ | .subReg _ _ | .shr _
  | .subn _ _ | .shl _ | .ldVxDt _ | .loadRegs _ => [.regs]
  | .ldVxK _ => [.pc, .regs]
  | .rnd _ _ => [.regs, .random]
  | .drw _ _ _ => [.display, .regs]
  | .ldDtVx _ => [.delay]
  | .ldStVx _ => [.sound]
  | .ldI _ | .addI _ | .ldF _ => [.index]
  | .ldB _ | .storeRegs _ => [.memory]
  | .nop _ => []

/-- Only the listed parts change, and of the registers only those that `writes` names. -/
def WritesOnly (parts : List Part) (writes : Nibble → Bool) (s t : State) : Prop :=
  ChangesOnly parts s t ∧ ∀ r, writes r = false → t.readV r = s.readV r

theorem ChangesOnly.mono {parts parts' : List Part} {s t : State} (h : ChangesOnly parts s t) (hsub : parts ⊆ parts') :
    ChangesOnly parts' s t :=
  ⟨fun p hp => h.1 p fun hin => hp (hsub hin), h.2⟩

theorem changesOnly_self (s : State) : ChangesOnly [] s s := by
  refine ⟨fun p _ => ?_, rfl, rfl, rfl⟩
  cases p <;> simp [SamePart]

/-- Where the registers are no listed part, none of them changes. -/
theorem ChangesOnly.writesOnly {parts : List Part} {writes : Nibble → Bool} {s t : State} (h : ChangesOnly parts s t)
    (hregs : Part.regs ∉ parts) : WritesOnly parts writes s t :=
  ⟨h, fun r _ => h.1 .regs hregs r⟩

theorem ChangesOnlyRegs.writesOnly {P : Nibble → Prop} {writes : Nibble → Bool} {s t : State} (h : ChangesOnlyRegs P s t)
    (hP : ∀ r, writes r = false → ¬ P r) : WritesOnly [.regs] writes s t :=
  ⟨h.1, fun r hr => h.2 r (hP r hr)⟩

theorem skipIf_changesOnly (c : Bool) (s : State) : ChangesOnly [.pc] s (skipIf c s) := by
  rw [skipIf_eq]
  exact setPc_changesOnly ..

/-- A handler writes only the parts and the registers that are its own. -/
theorem exec_writesOnly {i : Instr} {s t : State} (h : exec i s = .next t) :
    WritesOnly (partsWritten i) (writesRegister i) s t := by
  cases i with
  | cls => cases h; exact (setFb_changesOnly ..).writesOnly (by decide)
  | ret =>
    obtain ⟨n, -, rfl⟩ := exec_ret_next h
    exact (ret_changesOnly ..).writesOnly (by decide)
  | call nnn =>
    obtain ⟨hlt, rfl⟩ := exec_call_next h
    exact (call_changesOnly ..).writesOnly (by decide)
  | jp _ | jpV0 _ => cases h; exact (setPc_changesOnly ..).writesOnly (by decide)
  | seImm _ _ | sneImm _ _ | seReg _ _ | sneReg _ _ => cases h; exact (skipIf_changesOnly ..).writesOnly (by decide)
  | skp x =>
    obtain ⟨c, rfl⟩ := exec_skp_next h
    exact (skipIf_changesOnly ..).writesOnly (by decide)
  | sknp x =>
    obtain ⟨c, rfl⟩ := exec_sknp_next h
    exact (skipIf_changesOnly ..).writesOnly (by decide)
  | ldImm x _ | addImm x _ | ldReg x _ | orReg x _ | andReg x _ | xorReg x _ | ldVxDt x =>
    cases h
    exact (writeV_changesOnly ..).writesOnly fun r hr => by simpa [writesRegister] using hr
  | addReg x _ | subReg x _ | shr x | subn x _ | shl x =>
    cases h
    exact (writeResult_changesOnly ..).writesOnly fun r hr => by simpa [writesRegister, vf] using hr
  | ldVxK x =>
    obtain ⟨b, rfl⟩ | rfl := exec_ldVxK_next h
    · have hframe := writeV_changesOnly s x b
      exact ⟨hframe.1.mono (by simp [partsWritten]), fun r hr => hframe.2 r (by simpa [writesRegister] using hr)⟩
    · exact ⟨(setPc_changesOnly ..).mono (by simp [partsWritten]), fun _ _ => rfl⟩
  | loadRegs x =>
    obtain rfl := exec_loadRegs_next h
    refine ⟨writeBlock_changesOnly .., fun r hr => ?_⟩
    rw [State.loadBlock_readV, if_neg (by simpa [writesRegister] using hr)]
  | rnd x kk =>
    cases h
    obtain ⟨bytes, n, hadv⟩ := s.advanceRnd_eq
    rw [hadv]
    refine ⟨setRnd_writeV_changesOnly .., fun r hr => ?_⟩
    rw [State.writeV_readV, if_neg (by simpa [writesRegister] using hr), State.setRnd_readV]
  | drw x y n =>
    obtain ⟨-, rfl⟩ := exec_drw_next h
    refine ⟨draw_changesOnly .., fun r hr => ?_⟩
    rw [State.setFlag_readV, if_neg (by simpa [writesRegister, vf] using hr), State.setFb_readV]
  | ldDtVx x => cases h; exact (setDt_changesOnly ..).writesOnly (by decide)
  | ldStVx x => cases h; exact (setSt_changesOnly ..).writesOnly (by decide)
  | ldI _ | addI _ | ldF _ => cases h; exact (setI_changesOnly ..).writesOnly (by decide)
  | ldB x =>
    obtain ⟨-, rfl⟩ := exec_ldB_next h
    exact (storeBytes_changesOnly ..).writesOnly (by decide)
  | storeRegs x =>
    obtain ⟨-, rfl⟩ := exec_storeRegs_next h
    exact (storeBytes_changesOnly ..).writesOnly (by decide)
  | nop word => cases h; exact (changesOnly_self s).writesOnly (by decide)

/-! ### The writers of each part (R37) -/

theorem writesPc_of_mem {i : Instr} (h : Part.pc ∈ partsWritten i) : writesPc i = true := by
  cases i <;> simp [partsWritten, writesPc] at h ⊢

theorem writer_of_memory {i : Instr} (h : Part.memory ∈ partsWritten i) : ∃ x, i = .ldB x ∨ i = .storeRegs x := by
  cases i <;> simp [partsWritten] at h ⊢

theorem writer_of_stack {i : Instr} (h : Part.stack ∈ partsWritten i) : i = .ret ∨ ∃ nnn, i = .call nnn := by
  cases i <;> simp [partsWritten] at h ⊢

theorem writer_of_delay {i : Instr} (h : Part.delay ∈ partsWritten i) : ∃ x, i = .ldDtVx x := by
  cases i <;> simp [partsWritten] at h ⊢

theorem writer_of_sound {i : Instr} (h : Part.sound ∈ partsWritten i) : ∃ x, i = .ldStVx x := by
  cases i <;> simp [partsWritten] at h ⊢

theorem writer_of_display {i : Instr} (h : Part.display ∈ partsWritten i) : i = .cls ∨ ∃ x y n, i = .drw x y n := by
  cases i <;> simp [partsWritten] at h ⊢

theorem writer_of_index {i : Instr} (h : Part.index ∈ partsWritten i) :
    (∃ nnn, i = .ldI nnn) ∨ ∃ x, i = .addI x ∨ i = .ldF x := by
  cases i <;> simp [partsWritten] at h ⊢

theorem writer_of_random {i : Instr} (h : Part.random ∈ partsWritten i) : ∃ x kk, i = .rnd x kk := by
  cases i <;> simp [partsWritten] at h ⊢

/-- Settles O53: the frame of the handler, part by part. -/
theorem eachPartHasItsWriters : Obligations.EachPartHasItsWriters := by
  intro i s t h
  obtain ⟨⟨hparts, hk, hopc, hfont⟩, hregs⟩ := exec_writesOnly h
  refine ⟨hk, hopc, hfont, hregs, fun hpc => hparts .pc fun hin => ?_, fun hne => hparts .memory fun hin => ?_,
    fun hret hcall => hparts .stack fun hin => ?_, fun hne => hparts .delay fun hin => ?_,
    fun hne => hparts .sound fun hin => ?_, fun hcls hdrw => hparts .display fun hin => ?_,
    fun hld hne => hparts .index fun hin => ?_, fun hne => hparts .random fun hin => ?_⟩
  · rw [writesPc_of_mem hin] at hpc; cases hpc
  · obtain ⟨x, hx | hx⟩ := writer_of_memory hin
    · exact (hne x).1 hx
    · exact (hne x).2 hx
  · obtain hx | ⟨nnn, hx⟩ := writer_of_stack hin
    · exact hret hx
    · exact hcall nnn hx
  · obtain ⟨x, hx⟩ := writer_of_delay hin
    exact hne x hx
  · obtain ⟨x, hx⟩ := writer_of_sound hin
    exact hne x hx
  · obtain hx | ⟨x, y, n, hx⟩ := writer_of_display hin
    · exact hcls hx
    · exact hdrw x y n hx
  · obtain ⟨nnn, hx⟩ | ⟨x, hx | hx⟩ := writer_of_index hin
    · exact hld nnn hx
    · exact (hne x).1 hx
    · exact (hne x).2 hx
  · obtain ⟨x, kk, hx⟩ := writer_of_random hin
    exact hne x kk hx

/-! ### `PC` (R26) -/

theorem exec_pc_eq {i : Instr} {s t : State} (h : exec i s = .next t) (hpc : Part.pc ∉ partsWritten i) : t.pc = s.pc :=
  (exec_writesOnly h).1.1 .pc hpc

theorem skipIf_pc (c : Bool) (s : State) : (skipIf c s).pc = s.pc ∨ (skipIf c s).pc = s.pc + 2 := by
  cases c with
  | true => exact .inr rfl
  | false => exact .inl rfl

/-- Settles O54: a skip, a poll, and every instruction that has no business with `PC`. -/
theorem pcMovesOnlyByControlTransfer : Obligations.PcMovesOnlyByControlTransfer := by
  intro i s t h
  cases i with
  | jp _ | call _ | ret | jpV0 _ => trivial
  | seImm _ _ | sneImm _ _ | seReg _ _ | sneReg _ _ => cases h; exact skipIf_pc ..
  | skp x =>
    obtain ⟨c, rfl⟩ := exec_skp_next h
    exact skipIf_pc ..
  | sknp x =>
    obtain ⟨c, rfl⟩ := exec_sknp_next h
    exact skipIf_pc ..
  | ldVxK x =>
    obtain ⟨b, rfl⟩ | rfl := exec_ldVxK_next h
    · exact .inl rfl
    · exact .inr rfl
  | _ => exact exec_pc_eq h (by simp [partsWritten])

/-! ### VF (R22, R36) -/

theorem flagByte_eq_zero_or_one (b : Bool) : flagByte b = 0 ∨ flagByte b = 1 := by cases b <;> decide

theorem writeResult_vf (s : State) (x : Nibble) (b : Byte) (flag : Bool) :
    (s.writeResult x b flag).readV 0xF = 0 ∨ (s.writeResult x b flag).readV 0xF = 1 := by
  rw [State.writeResult_readV, if_pos (show (0xF : Nibble) = vf from rfl)]
  exact flagByte_eq_zero_or_one flag

/-- Settles O37: the six write VF as a flag; the others write it only where they name it. -/
theorem vfChangesOnlyAsFlagOrDestination : Obligations.VfChangesOnlyAsFlagOrDestination := by
  intro i s t h
  have hregs := (exec_writesOnly h).2 0xF
  cases i with
  | addReg _ _ | subReg _ _ | shr _ | subn _ _ | shl _ => cases h; exact writeResult_vf ..
  | drw x y n =>
    obtain ⟨-, rfl⟩ := exec_drw_next h
    simp only [State.setFlag_readV]
    exact flagByte_eq_zero_or_one _
  | ldImm x _ | addImm x _ | ldReg x _ | orReg x _ | andReg x _ | xorReg x _ | rnd x _ | ldVxDt x | ldVxK x =>
    exact fun hx => hregs (beq_eq_false_iff_ne.mpr hx.symm)
  | loadRegs x =>
    refine fun hx => hregs (decide_eq_false fun hle => hx ?_)
    have hmax : x.toNat ≤ 15 := Nat.le_of_lt_succ x.isLt
    exact BitVec.eq_of_toNat_eq (Nat.le_antisymm hmax hle)
  | _ => exact hregs rfl

/-! ### The timers over a cycle (R95, R182) -/

/-- Settles O10: a handler that does not set a timer leaves it to the tick. -/
theorem timersCountDown : Obligations.TimersCountDown := by
  intro s t w h hfetch
  rw [step_of_fetchWord hfetch] at h
  obtain ⟨u, hexec, rfl⟩ := finishCycle_next h
  obtain ⟨hparts, -⟩ := (exec_writesOnly hexec).1
  refine ⟨fun hne => ?_, fun hne => ?_⟩
  · have hdt : u.dt = s.dt := hparts .delay fun hin => (writer_of_delay hin).elim hne
    rw [State.tick_dt_toNat, hdt]
  · have hst : u.st = s.st := hparts .sound fun hin => (writer_of_sound hin).elim hne
    rw [State.tick_st_toNat, hst]

end Sys2Proof.Machine
end

section
/-! PROOFS. Reset, and the invariant of a run (spec/70_reset_and_hazards.md, spec/10_state.md): it holds at reset, every cycle
keeps it, and so does every move of the host. -/

namespace Sys2Proof.Machine

/-! ### Reset (R38, R51) -/

theorem resetWith_readV (font : Vector Byte 80) (r : Nibble) : (State.resetWith font).readV r = 0 :=
  Vector.getElem_replicate ..

theorem resetWith_readStack (font : Vector Byte 80) (n : Fin 16) : (State.resetWith font).readStack n = 0 :=
  Vector.getElem_replicate ..

theorem resetWith_load (font : Vector Byte 80) (a : Nat) : (State.resetWith font).load a = Memory.unlisted font a := rfl

/-- Settles O18: every register, cell and key is filled with its reset value, and no byte of memory is listed. -/
theorem resetValues : Obligations.ResetValues := by
  intro font s
  refine ⟨resetWith_readV font, rfl, rfl, resetWith_readStack font, rfl, rfl, rfl, cellAt_blankFrame,
    fun j hj => Vector.getElem_replicate .., rfl, fun j hj => ?_, fun a ha => ?_⟩
  · rw [resetWith_load, Memory.unlisted_font font j hj]
  · rw [resetWith_load, Memory.unlisted_elsewhere font a ha]

theorem resetWith_inv (font : Vector Byte 80) : (State.resetWith font).Inv := by
  refine ⟨Nat.zero_le _, fun n => ?_, by simp [State.resetWith], Memory.wf_nil font⟩
  rw [resetWith_readStack]
  exact Nat.zero_le _

/-- Settles O16: the default font is one of the fonts. -/
theorem resetHasInvariant : Obligations.ResetHasInvariant := ⟨resetWith_inv _, resetWith_inv⟩

/-! ### Memory stays canonical (log 11) -/

/-- An instruction that stores nothing leaves the list of cells itself as it is. -/
theorem exec_mem_eq {i : Instr} {s t : State} (h : exec i s = .next t) (hmem : Part.memory ∉ partsWritten i) :
    t.mem = s.mem := by
  cases i with
  | ret =>
    obtain ⟨n, -, rfl⟩ := exec_ret_next h
    rfl
  | call nnn =>
    obtain ⟨hlt, rfl⟩ := exec_call_next h
    rfl
  | seImm _ _ | sneImm _ _ | seReg _ _ | sneReg _ _ =>
    cases h
    rw [skipIf_eq, State.setPc_mem]
  | skp x =>
    obtain ⟨c, rfl⟩ := exec_skp_next h
    rw [skipIf_eq, State.setPc_mem]
  | sknp x =>
    obtain ⟨c, rfl⟩ := exec_sknp_next h
    rw [skipIf_eq, State.setPc_mem]
  | ldVxK x => obtain ⟨b, rfl⟩ | rfl := exec_ldVxK_next h <;> rfl
  | loadRegs x =>
    obtain rfl := exec_loadRegs_next h
    rw [State.writeBlock_mem]
  | rnd x kk =>
    cases h
    obtain ⟨bytes, n, hadv⟩ := s.advanceRnd_eq
    rw [hadv]
    rfl
  | drw x y n =>
    obtain ⟨-, rfl⟩ := exec_drw_next h
    rfl
  | ldB x | storeRegs x => simp [partsWritten] at hmem
  | _ => cases h; rfl

theorem exec_keeps_wf {i : Instr} {s t : State} (h : exec i s = .next t) (hwf : Memory.wf s.font s.mem = true) :
    Memory.wf t.font t.mem = true := by
  by_cases hmem : Part.memory ∈ partsWritten i
  · obtain ⟨x, rfl | rfl⟩ := writer_of_memory hmem
    · obtain ⟨hle, rfl⟩ := exec_ldB_next h
      exact State.storeBytes_keeps_wf (by rw [digitsOf_length, State.base]; omega) hwf
    · obtain ⟨hle, rfl⟩ := exec_storeRegs_next h
      exact State.storeBytes_keeps_wf (by rw [State.block_length, State.base]; omega) hwf
  · obtain ⟨-, -, -, hfont⟩ := (exec_writesOnly h).1
    rw [exec_mem_eq h hmem, hfont]
    exact hwf

/-! ### The stack and `PC` stay in bounds (R26, R28) -/

/-- The stack of the invariant: a depth in [0, 16] and entries that are advanced values of `PC` (R28, R101). -/
def State.StackBounded (s : State) : Prop := s.sp.toNat ≤ 16 ∧ ∀ n, (s.readStack n).toNat ≤ 0x1000

theorem exec_keeps_stack {i : Instr} {s t : State} (h : exec i s = .next t) (hpc : s.pc.toNat ≤ 0x1000)
    (hstack : s.StackBounded) : t.StackBounded := by
  obtain ⟨hsp, hentries⟩ := hstack
  by_cases hin : Part.stack ∈ partsWritten i
  · obtain rfl | ⟨nnn, rfl⟩ := writer_of_stack hin
    · obtain ⟨n, hn, rfl⟩ := exec_ret_next h
      have hdepth : (s.sp - 1).toNat = n.val := sp_pred_toNat hn
      exact ⟨by rw [State.setPc_sp, State.setSp_sp, hdepth]; omega, hentries⟩
    · obtain ⟨hlt, rfl⟩ := exec_call_next h
      have hdepth : (s.sp + 1).toNat = s.sp.toNat + 1 := sp_succ_toNat hlt
      refine ⟨by rw [State.setPc_sp, State.setSp_sp, hdepth]; omega, fun n => ?_⟩
      rw [State.setPc_readStack, State.setSp_readStack, State.writeStack_readStack]
      split
      · exact hpc
      · exact hentries n
  · obtain ⟨hsp', hentries'⟩ := (exec_writesOnly h).1.1 .stack hin
    exact ⟨by rw [hsp']; exact hsp, fun n => by rw [hentries']; exact hentries n⟩

/-- Two bytes further than an advanced `PC` is still far from wrapping. -/
theorem pc_add_two_le {a b : Word} (hb : b.toNat ≤ 0x1000) (h : a = b ∨ a = b + 2) : a.toNat ≤ 0x10FE := by bv_omega

/-- The poll's step back from an advanced `PC` does not wrap. -/
theorem pc_sub_two_le {a b : Word} (hb : b.toNat ≤ 0x1000) (hb2 : 2 ≤ b.toNat) (h : a = b ∨ a = b - 2) :
    a.toNat ≤ 0x10FE := by bv_omega

/-- From an advanced `PC` no handler takes it past 0x10FE, which Bnnn can reach (D18). -/
theorem exec_keeps_pc {i : Instr} {s t : State} (h : exec i s = .next t) (hpc : s.pc.toNat ≤ 0x1000)
    (hpc2 : 2 ≤ s.pc.toNat) (hstack : s.StackBounded) : t.pc.toNat ≤ 0x10FE := by
  have hmove := pcMovesOnlyByControlTransfer i s t h
  cases i with
  | jp nnn =>
    cases h
    have := nnn.isLt
    rw [State.setPc_pc, addrOf_toNat]
    omega
  | call nnn =>
    obtain ⟨hlt, rfl⟩ := exec_call_next h
    have := nnn.isLt
    rw [State.setPc_pc, addrOf_toNat]
    omega
  | ret =>
    obtain ⟨n, -, rfl⟩ := exec_ret_next h
    have := hstack.2 n
    rw [State.setPc_pc]
    omega
  | jpV0 nnn =>
    cases h
    have := nnn.isLt
    have := (s.readV 0).isLt
    rw [State.setPc_pc, addrOf_add_wordOf_toNat]
    omega
  | ldVxK x => exact pc_sub_two_le hpc hpc2 hmove
  | seImm _ _ | sneImm _ _ | seReg _ _ | sneReg _ _ | skp _ | sknp _ => exact pc_add_two_le hpc hmove
  | _ => exact pc_add_two_le hpc (.inl hmove)

/-! ### The invariant over a cycle and along a run -/

/-- A handler that completes takes an advanced state of the invariant to a state of the invariant. -/
theorem exec_keeps_inv {i : Instr} {s t : State} (h : exec i s = .next t) (hinv : s.Inv) (hpc : s.pc.toNat ≤ 0x1000)
    (hpc2 : 2 ≤ s.pc.toNat) : t.Inv := by
  obtain ⟨hsp, hentries, -, hwf⟩ := hinv
  obtain ⟨hsp', hentries'⟩ := exec_keeps_stack h hpc ⟨hsp, hentries⟩
  exact ⟨hsp', hentries', exec_keeps_pc h hpc hpc2 ⟨hsp, hentries⟩, exec_keeps_wf h hwf⟩

/-- Only `PC` of the advanced state is new to the invariant. -/
theorem State.Inv.advance {s : State} (hinv : s.Inv) (w : Word) (hpc : s.pc.toNat ≤ 0xFFE) : (s.advance w).Inv := by
  obtain ⟨hsp, hentries, -, hwf⟩ := hinv
  exact ⟨hsp, hentries, by rw [State.advance_pc_toNat w hpc]; omega, hwf⟩

/-- The invariant does not look at the timers. -/
theorem State.Inv.tick {s : State} (hinv : s.Inv) : s.tick.Inv := hinv

/-- Settles O15: a completed cycle is a handler on the advanced state; a fault leaves the state or the advanced state. -/
theorem stepKeepsInvariant : Obligations.StepKeepsInvariant := by
  refine fun s hinv => ⟨fun t h => ?_, fun f h => ?_⟩
  · by_cases hpc : s.pc.toNat ≤ 0xFFE
    · obtain ⟨w, hfetch⟩ : ∃ w, s.fetchWord = some w := ⟨_, fetchWord_of_le hpc⟩
      rw [step_of_fetchWord hfetch] at h
      obtain ⟨u, hexec, rfl⟩ := finishCycle_next h
      have hadv := State.advance_pc_toNat w hpc
      exact (exec_keeps_inv hexec (hinv.advance w hpc) (by omega) (by omega)).tick
    · rw [step_of_pc_gt (by omega)] at h; cases h
  · obtain ⟨-, rfl⟩ | ⟨hpc, w, c, value, -, -, rfl⟩ := step_fault_cases h
    · exact hinv
    · rw [Fault.ofCause_after]
      exact hinv.advance w hpc

theorem launchState_inv {font : Vector Byte 80} {image : List Byte} {k : Vector Bool 16} {s : State}
    (h : launchState font image k = some s) : s.Inv := by
  rw [launchState, State.loadRom] at h
  by_cases hfits : image.length ≤ Config.romMax
  · rw [if_pos hfits, Option.some.injEq] at h
    subst h
    obtain ⟨hsp, hentries, hpc, hwf⟩ := resetWith_inv font
    refine ⟨?_, fun n => ?_, ?_, State.storeBytes_keeps_wf (Nat.add_le_add_left hfits 0x200) hwf⟩
    · rw [State.setKeys, State.setK_sp, State.storeBytes_sp]; exact hsp
    · rw [State.setKeys, State.setK_readStack, State.storeBytes_readStack]; exact hentries n
    · rw [State.setKeys, State.setK_pc, State.storeBytes_pc]; exact hpc
  · rw [if_neg hfits] at h; cases h

/-- The outcome of a cycle with a presented byte is an outcome of a step, with the byte dropped after it (R97). -/
theorem cycleWith_keeps_inv {s : State} (hinv : s.Inv) (b : Byte) :
    (∀ t, cycleWith b s = .next t → t.Inv) ∧ ∀ f, cycleWith b s = .fault f → f.after.Inv := by
  obtain ⟨hnext, hfault⟩ := stepKeepsInvariant (s.setRnd [b] s.draws) hinv
  rw [cycleWith]
  cases hstep : step (s.setRnd [b] s.draws) with
  | next u =>
    refine ⟨fun t h => ?_, fun f h => (by cases h)⟩
    cases h
    exact hnext u hstep
  | fault g =>
    refine ⟨fun t h => (by cases h), fun f h => ?_⟩
    cases h
    rw [Fault.ofCause_after]
    exact hfault g hstep
  | refused r => exact ⟨fun t h => (by cases h), fun f h => (by cases h)⟩

/-- Every move of the host keeps the invariant, whether its cycle completes, faults or is refused (R204). -/
theorem move_keeps_inv {r : Session} (hinv : r.state.Inv) (m : HostMove) : (r.move m).state.Inv := by
  cases m with
  | setKeys k => exact hinv
  | cycle b =>
    obtain ⟨hnext, hfault⟩ := cycleWith_keeps_inv hinv b
    rw [Session.move]
    cases hcycle : cycleWith b r.state with
    | next t => exact hnext t hcycle
    | fault f => exact hfault f hcycle
    | refused q => exact hinv

theorem moves_keep_inv (moves : List HostMove) {r : Session} (hinv : r.state.Inv) : (r.moves moves).state.Inv := by
  induction moves generalizing r with
  | nil => exact hinv
  | cons m rest ih => exact ih (move_keeps_inv hinv m)

/-- Settles O17: the launch state has the invariant, and every move keeps it. -/
theorem invariantHoldsAlongEveryRun : Obligations.InvariantHoldsAlongEveryRun := fun _ _ _ _ hlaunch moves =>
  moves_keep_inv moves (launchState_inv hlaunch)

end Sys2Proof.Machine
end

section
/-! PROOFS. What an instruction does not read (R30 to R33, R97, R98). One theorem for all five statements: lay other values over
the sound timer, the display, the keys, the latched opcode and the random input, and an instruction that does not read them has
the same outcome under them. -/

namespace Sys2Proof.Machine

/-! ### Laying other values over a state -/

/-- Values for the fields that some instructions, or all, do not read. -/
structure Overlay where
  st : Byte
  fb : Frame
  k : Vector Bool 16
  opc : Word
  rndSeq : List Byte
  draws : Nat

/-- The values a state has there. -/
def Overlay.of (s : State) : Overlay :=
  { st := s.st, fb := s.fb, k := s.k, opc := s.opc, rndSeq := s.rndSeq, draws := s.draws }

/-- The state with these values there. -/
def State.overlay (s : State) (o : Overlay) : State :=
  { s with st := o.st, fb := o.fb, k := o.k, opc := o.opc, rndSeq := o.rndSeq, draws := o.draws }

/-- The values are the state's own in the field that the instruction reads. -/
def Overlay.AgreesOnReads (o : Overlay) (s : State) : Instr → Prop
  | .drw _ _ _ => o.fb = s.fb
  | .skp _ | .sknp _ | .ldVxK _ => o.k = s.k
  | .rnd _ _ => o.rndSeq = s.rndSeq ∧ o.draws = s.draws
  | _ => True

/-- The values after the instruction has left the state `t`: it replaces the field that it writes. -/
def Overlay.written (o : Overlay) (t : State) : Instr → Overlay
  | .ldStVx _ => { o with st := t.st }
  | .cls | .drw _ _ _ => { o with fb := t.fb }
  | .rnd _ _ => { o with rndSeq := t.rndSeq, draws := t.draws }
  | _ => o

/-- An outcome of the instruction, as it is with the values laid over the state. -/
def Overlay.carry (o : Overlay) (i : Instr) : Result → Result
  | .next t => .next (t.overlay (o.written t i))
  | .fault f => .fault (Fault.ofCause f.cause { f.info with opcode := o.opc } (f.after.overlay o))
  | .refused r => .refused r

/-! ### The shared operations under an overlay -/

theorem overlay_storeBytes (s : State) (o : Overlay) (a : Nat) (bs : List Byte) :
    (s.overlay o).storeBytes a bs = (s.storeBytes a bs).overlay o := by
  induction bs generalizing s a with
  | nil => rfl
  | cons b rest ih => exact ih (s.store a b) (a + 1)

theorem overlay_writeBlock (s : State) (o : Overlay) (k : Nat) (bs : List Byte) :
    (s.overlay o).writeBlock k bs = (s.writeBlock k bs).overlay o := by
  induction bs generalizing s k with
  | nil => rfl
  | cons b rest ih => exact ih (s.writeV _ b) (k + 1)

theorem overlay_loadBytes (s : State) (o : Overlay) (a n : Nat) : (s.overlay o).loadBytes a n = s.loadBytes a n :=
  State.loadBytes_congr (s := s) (t := s.overlay o) (fun _ => rfl) a n

theorem overlay_skipIf (c : Bool) (s : State) (o : Overlay) : skipIf c (s.overlay o) = (skipIf c s).overlay o := by
  cases c <;> rfl

theorem overlay_drawOf {s : State} {o : Overlay} (h : o.fb = s.fb) (x y n : Nibble) :
    (s.overlay o).drawOf x y n = s.drawOf x y n := by
  have hfb : (s.overlay o).fb = s.fb := h
  rw [State.drawOf, hfb, overlay_loadBytes]
  rfl

theorem overlay_leastPressed {s : State} {o : Overlay} (h : o.k = s.k) :
    (s.overlay o).leastPressed = s.leastPressed :=
  congrArg (fun k : Vector Bool 16 => leastPressedFrom 0 k.toList) h

theorem overlay_key {s : State} {o : Overlay} (h : o.k = s.k) {j : Nat} (hj : j < 16) :
    (s.overlay o).k[j] = s.k[j] :=
  congrArg (fun k : Vector Bool 16 => k[j]) h

theorem overlay_advanceRnd {s : State} {o : Overlay} (hseq : o.rndSeq = s.rndSeq) (hdraws : o.draws = s.draws) :
    (s.overlay o).advanceRnd =
      s.advanceRnd.overlay { o with rndSeq := s.advanceRnd.rndSeq, draws := s.advanceRnd.draws } := by
  obtain ⟨st, fb, k, opc, rndSeq, draws⟩ := o
  obtain rfl : rndSeq = s.rndSeq := hseq
  obtain rfl : draws = s.draws := hdraws
  obtain ⟨_, _, _, _, _, _, _, _, _, _, _, _, rndSeq, _⟩ := s
  cases rndSeq <;> rfl

theorem overlay_rnd {s : State} {o : Overlay} (hseq : o.rndSeq = s.rndSeq) (hdraws : o.draws = s.draws) :
    (s.overlay o).rnd = s.rnd := by
  obtain ⟨st, fb, k, opc, rndSeq, draws⟩ := o
  obtain rfl : rndSeq = s.rndSeq := hseq
  obtain rfl : draws = s.draws := hdraws
  rfl

/-- A handler under an overlay of values it does not read. -/
theorem exec_overlay {i : Instr} {s : State} {o : Overlay} (h : o.AgreesOnReads s i) :
    exec i (s.overlay o) = o.carry i (exec i s) := by
  cases i with
  | ret =>
    obtain h0 | ⟨n, hn⟩ | hgt := sp_cases s.sp
    · rw [exec_ret_empty (s := s.overlay o) h0, exec_ret_empty h0]; rfl
    · rw [exec_ret_of_succ (s := s.overlay o) hn, exec_ret_of_succ hn]; rfl
    · rw [exec_ret_of_gt (s := s.overlay o) hgt, exec_ret_of_gt hgt]; rfl
  | call nnn =>
    rcases Nat.lt_trichotomy s.sp.toNat 16 with hlt | heq | hgt
    · rw [exec_call_of_lt nnn (s := s.overlay o) hlt, exec_call_of_lt nnn hlt]; rfl
    · rw [exec_call_full nnn (s := s.overlay o) heq, exec_call_full nnn heq]; rfl
    · rw [exec_call_of_gt nnn (s := s.overlay o) hgt, exec_call_of_gt nnn hgt]; rfl
  | seImm _ _ | sneImm _ _ | seReg _ _ | sneReg _ _ => exact congrArg Host.Outcome.next (overlay_skipIf ..)
  | skp x =>
    by_cases hlt : (s.readV x).toNat < 16
    · have hkey := overlay_key h hlt
      rw [exec_skp_of_lt (s := s.overlay o) hlt, exec_skp_of_lt hlt]
      exact congrArg Host.Outcome.next ((congrArg (skipIf · _) hkey).trans (overlay_skipIf ..))
    · rw [exec_skp_of_gt (s := s.overlay o) (Nat.not_lt.mp hlt), exec_skp_of_gt (Nat.not_lt.mp hlt)]; rfl
  | sknp x =>
    by_cases hlt : (s.readV x).toNat < 16
    · have hkey := congrArg not (overlay_key h hlt)
      rw [exec_sknp_of_lt (s := s.overlay o) hlt, exec_sknp_of_lt hlt]
      exact congrArg Host.Outcome.next ((congrArg (skipIf · _) hkey).trans (overlay_skipIf ..))
    · rw [exec_sknp_of_gt (s := s.overlay o) (Nat.not_lt.mp hlt), exec_sknp_of_gt (Nat.not_lt.mp hlt)]; rfl
  | ldVxK x =>
    have hpoll := overlay_leastPressed (s := s) h
    cases hs : s.leastPressed with
    | some k => rw [exec_ldVxK_of_some x (hpoll.trans hs), exec_ldVxK_of_some x hs]; rfl
    | none => rw [exec_ldVxK_of_none x (hpoll.trans hs), exec_ldVxK_of_none x hs]; rfl
  | rnd x kk =>
    obtain ⟨hseq, hdraws⟩ := h
    rw [exec_rnd, exec_rnd, overlay_advanceRnd hseq hdraws, overlay_rnd hseq hdraws]; rfl
  | drw x y n =>
    have hdraw := overlay_drawOf h x y n
    by_cases hin : n = 0 ∨ s.i.toNat + n.toNat ≤ 0x1000
    · rw [exec_drw_of_inMemory (s := s.overlay o) hin, exec_drw_of_inMemory hin, hdraw]; rfl
    · obtain ⟨hn, hgt⟩ := not_or.mp hin
      rw [exec_drw_of_gt (s := s.overlay o) hn (Nat.not_le.mp hgt), exec_drw_of_gt hn (Nat.not_le.mp hgt)]; rfl
  | ldB x =>
    by_cases hle : s.i.toNat ≤ 0xFFD
    · rw [exec_ldB_of_le x (s := s.overlay o) hle, exec_ldB_of_le x hle, overlay_storeBytes]; rfl
    · rw [exec_ldB_of_gt x (s := s.overlay o) (Nat.not_le.mp hle), exec_ldB_of_gt x (Nat.not_le.mp hle)]; rfl
  | storeRegs x =>
    by_cases hle : s.i.toNat + x.toNat ≤ 0xFFF
    · rw [exec_storeRegs_of_le (s := s.overlay o) hle, exec_storeRegs_of_le hle, overlay_storeBytes]; rfl
    · rw [exec_storeRegs_of_gt (s := s.overlay o) (Nat.not_le.mp hle), exec_storeRegs_of_gt (Nat.not_le.mp hle)]; rfl
  | loadRegs x =>
    by_cases hle : s.i.toNat + x.toNat ≤ 0xFFF
    · rw [exec_loadRegs_of_le (s := s.overlay o) hle, exec_loadRegs_of_le hle, overlay_loadBytes, overlay_writeBlock]; rfl
    · rw [exec_loadRegs_of_gt (s := s.overlay o) (Nat.not_le.mp hle), exec_loadRegs_of_gt (Nat.not_le.mp hle)]; rfl
  | _ => rfl

/-! ### The values an instruction leaves of its own -/

/-- From the state's own values an instruction leaves the new state's own. -/
theorem written_of {i : Instr} {s t : State} (h : exec i s = .next t) : (Overlay.of s).written t i = Overlay.of t := by
  obtain ⟨hparts, hk, hopc, -⟩ := (exec_writesOnly h).1
  have hst : Part.sound ∉ partsWritten i → t.st = s.st := hparts .sound
  have hfb : Part.display ∉ partsWritten i → t.fb = s.fb := fun hp => frame_ext (hparts .display hp)
  have hrnd : Part.random ∉ partsWritten i → t.rndSeq = s.rndSeq ∧ t.draws = s.draws := hparts .random
  cases i <;> simp_all [partsWritten, Overlay.written, Overlay.of]

/-- A value laid over the sound timer changes that value alone in what the instruction leaves; so for the other fields. -/
theorem written_st (o : Overlay) (b : Byte) (t : State) (i : Instr) :
    ∃ b', ({ o with st := b } : Overlay).written t i = { o.written t i with st := b' } := by
  cases i <;> exact ⟨_, rfl⟩

theorem written_fb (o : Overlay) (f : Frame) (t : State) (i : Instr) :
    ∃ f', ({ o with fb := f } : Overlay).written t i = { o.written t i with fb := f' } := by
  cases i <;> exact ⟨_, rfl⟩

theorem written_k (o : Overlay) (k : Vector Bool 16) (t : State) (i : Instr) :
    ({ o with k := k } : Overlay).written t i = { o.written t i with k := k } := by
  cases i <;> rfl

theorem written_opc (o : Overlay) (w : Word) (t : State) (i : Instr) :
    ({ o with opc := w } : Overlay).written t i = { o.written t i with opc := w } := by
  cases i <;> rfl

theorem written_rndSeq (o : Overlay) (bytes : List Byte) (t : State) {i : Instr} (hi : ∀ x kk, i ≠ .rnd x kk) :
    ({ o with rndSeq := bytes } : Overlay).written t i = { o.written t i with rndSeq := bytes } := by
  cases i with
  | rnd x kk => exact absurd rfl (hi x kk)
  | _ => rfl

/-! ### The latched opcode (R33) -/

/-- No instruction reads the latched opcode. -/
theorem exec_setOpc (i : Instr) (s : State) (w : Word) :
    exec i { s with opc := w } = ({ Overlay.of s with opc := w } : Overlay).carry i (exec i s) :=
  exec_overlay (s := s) (o := { Overlay.of s with opc := w }) (by cases i <;> simp [Overlay.AgreesOnReads, Overlay.of])

/-- Settles O55: the opcode laid over the state is carried through the handler. -/
theorem opcodeLatchIsHidden : Obligations.OpcodeLatchIsHidden := by
  refine fun i s w => ⟨fun t h => ?_, fun f h => ?_⟩
  · rw [exec_setOpc, h, Overlay.carry, written_opc, written_of h]
    rfl
  · obtain ⟨c, value, -, rfl⟩ := exec_fault_eq h
    rw [exec_setOpc, h, Overlay.carry, Fault.ofCause_after]
    rfl

/-! ### The sound timer, the display, the keys (R30 to R32) -/

/-- Outcomes that differ at most where `hide` overwrites the state look the same through it. -/
theorem view_exec_overlay {i : Instr} {s : State} {o : Overlay} {hide : State → State} (h : o.AgreesOnReads s i)
    (hopc : o.opc = s.opc) (hs : hide (s.overlay o) = hide s)
    (hnext : ∀ t, exec i s = .next t → hide (t.overlay (o.written t i)) = hide t) :
    viewThrough hide (exec i (s.overlay o)) = viewThrough hide (exec i s) := by
  rw [exec_overlay h]
  cases hexec : exec i s with
  | next t => exact congrArg Host.Outcome.next (hnext t hexec)
  | fault f =>
    obtain ⟨c, value, -, rfl⟩ := exec_fault_eq hexec
    simp only [Overlay.carry, viewThrough, Fault.ofCause_cause, Fault.ofCause_info, Fault.ofCause_after, hopc, hs]
  | refused r => rfl

/-- Settles O56: the value laid over the sound timer ends there, or is replaced by Fx18. -/
theorem soundTimerIsNeverRead : Obligations.SoundTimerIsNeverRead := by
  intro i s b
  refine view_exec_overlay (s := s) (o := { Overlay.of s with st := b }) ?_ rfl rfl fun t h => ?_
  · cases i <;> simp [Overlay.AgreesOnReads, Overlay.of]
  · obtain ⟨b', hwritten⟩ := written_st (Overlay.of s) b t i
    rw [hwritten, written_of h]
    rfl

/-- Settles O57: the value laid over the display ends there, or is replaced by 00E0. -/
theorem displayIsReadOnlyByDraw : Obligations.DisplayIsReadOnlyByDraw := by
  intro i s f hi
  refine view_exec_overlay (s := s) (o := { Overlay.of s with fb := f }) ?_ rfl rfl fun t h => ?_
  · cases i with
    | drw x y n => exact absurd rfl (hi x y n)
    | _ => simp [Overlay.AgreesOnReads, Overlay.of]
  · obtain ⟨f', hwritten⟩ := written_fb (Overlay.of s) f t i
    rw [hwritten, written_of h]
    rfl

/-- An outcome whose states have nothing to hide looks like itself. -/
theorem viewThrough_eq_self {r : Result} {hide : State → State} (hnext : ∀ t, r = .next t → hide t = t)
    (hfault : ∀ f, r = .fault f → hide f.after = f.after) : viewThrough hide r = r := by
  cases r with
  | next t => exact congrArg Host.Outcome.next (hnext t rfl)
  | fault f => rw [viewThrough, hfault f rfl, Fault.ofCause_eta]
  | refused q => rfl

/-- No handler changes the keys, so putting them back changes nothing. -/
theorem viewThrough_k_exec (i : Instr) (s : State) : viewThrough (fun t => { t with k := s.k }) (exec i s) = exec i s := by
  refine viewThrough_eq_self (fun t h => ?_) fun f h => ?_
  · obtain ⟨-, hk, -⟩ := (exec_writesOnly h).1
    rw [← hk]
  · obtain ⟨c, value, -, rfl⟩ := exec_fault_eq h
    rw [Fault.ofCause_after]

/-- Settles O58: the keys laid over the state end there, as they were. -/
theorem keysAreReadOnlyByKeyInstructions : Obligations.KeysAreReadOnlyByKeyInstructions := by
  intro i s k hi
  rw [← viewThrough_k_exec i s]
  refine view_exec_overlay (s := s) (o := { Overlay.of s with k := k }) ?_ rfl rfl fun t h => ?_
  · cases i with
    | skp x => exact absurd rfl (hi x).1
    | sknp x => exact absurd rfl (hi x).2.1
    | ldVxK x => exact absurd rfl (hi x).2.2
    | _ => simp [Overlay.AgreesOnReads, Overlay.of]
  · rw [written_k, written_of h]
    rfl

/-! ### The byte presented with a cycle (R97) -/

/-- An instruction other than Cxkk carries the bytes still to come through unread. -/
theorem exec_setRnd {i : Instr} (hi : ∀ x kk, i ≠ .rnd x kk) (s : State) (bytes : List Byte) :
    exec i (s.setRnd bytes s.draws) = ({ Overlay.of s with rndSeq := bytes } : Overlay).carry i (exec i s) := by
  refine exec_overlay (s := s) (o := { Overlay.of s with rndSeq := bytes }) ?_
  cases i with
  | rnd x kk => exact absurd rfl (hi x kk)
  | _ => simp [Overlay.AgreesOnReads, Overlay.of]

theorem setRnd_self {s : State} (h : s.rndSeq = []) : s.setRnd [] s.draws = s := by
  rw [← h]
  rfl

/-- A handler that does not draw leaves no trace of a presented byte once it is dropped. -/
theorem dropRandom_exec_setRnd {i : Instr} (hi : ∀ x kk, i ≠ .rnd x kk) {s : State} (hs : s.rndSeq = []) (b : Byte) :
    dropRandom (finishCycle (exec i (s.setRnd [b] s.draws))) = finishCycle (exec i s) := by
  rw [exec_setRnd hi]
  cases hexec : exec i s with
  | next t =>
    have hnot : Part.random ∉ partsWritten i := fun hin => by
      obtain ⟨x, kk, hx⟩ := writer_of_random hin
      exact hi x kk hx
    have ht : t.rndSeq = [] := ((exec_writesOnly hexec).1.1 .random hnot).1.trans hs
    rw [Overlay.carry, written_rndSeq _ _ _ hi, written_of hexec]
    exact congrArg Host.Outcome.next (setRnd_self (s := t.tick) ht)
  | fault f =>
    obtain ⟨c, value, -, rfl⟩ := exec_fault_eq hexec
    simp only [Overlay.carry, finishCycle, dropRandom, Fault.ofCause_cause, Fault.ofCause_info, Fault.ofCause_after]
    exact congrArg (fun u => Host.Outcome.fault (Fault.ofCause c _ u)) (setRnd_self hs)
  | refused r => rfl

/-- A cycle that fetches no Cxkk is the step with no byte presented. -/
theorem cycleWith_eq_step {s : State} (hs : s.rndSeq = [])
    (hi : ∀ w, s.fetchWord = some w → ∀ x kk, decodeWord w ≠ .rnd x kk) (b : Byte) : cycleWith b s = step s := by
  have hsame : (s.setRnd [b] s.draws).fetchWord = s.fetchWord := fetchWord_congr rfl fun _ => rfl
  by_cases hpc : s.pc.toNat ≤ 0xFFE
  · obtain ⟨w, hfetch⟩ : ∃ w, s.fetchWord = some w := ⟨_, fetchWord_of_le hpc⟩
    rw [cycleWith, step_of_fetchWord (hsame.trans hfetch), step_of_fetchWord hfetch]
    exact dropRandom_exec_setRnd (s := s.advance w) (hi w hfetch) hs b
  · rw [cycleWith, step_of_pc_gt (s := s.setRnd [b] s.draws) (Nat.not_le.mp hpc), step_of_pc_gt (Nat.not_le.mp hpc)]
    exact congrArg (fun u => Host.Outcome.fault (Fault.fetchOutOfBounds ⟨1, s.pc, s.opc, s.pc⟩ u)) (setRnd_self hs)

/-- Settles O20: whichever byte is presented, the cycle is the step with none. -/
theorem presentedByteIsUsedOnlyByRnd : Obligations.PresentedByteIsUsedOnlyByRnd := fun _ b c hs hi =>
  ⟨(cycleWith_eq_step hs hi b).trans (cycleWith_eq_step hs hi c).symm, cycleWith_eq_step hs hi b⟩

end Sys2Proof.Machine
end
